-- ==== Sys2Proof/Word.lean ====
section
/-! DEFINITION. The word types of the block (00_scope.md section 5: every value is unsigned and bit 0 is
the least significant bit). -/

namespace Sys2Proof

/-- A byte of payload, of a frame or of the chunk buffer. -/
abbrev Byte := BitVec 8

/-- The width of the CRC16 register (R6, R20). -/
abbrev Half := BitVec 16

/-- The width of the readable registers and of a command's operand (R33, R80). -/
abbrev Word := BitVec 32

/-- A command word `cmd[39:0]` (R80). -/
abbrev CmdWord := BitVec 40

/-- A packet as it leaves the block: the list of its bytes in offset order (R71), 216 of them in every
frame the block emits (R70). -/
abbrev Frame := List Byte

end Sys2Proof
end

