-- ==== Sys2Proof/Syntax.lean ====
section
/-! DEFINITION. The eight commands of the block (R81), one constructor per row of spec/opcode_table.json. -/

namespace Sys2Proof

/-- A command with its decoded operand (R82). A must-be-zero operand field is no argument: a word with a
non-zero bit there is no command at all (R83). -/
inductive Instr where
  /-- NOP, opcode 0x00 (R150). -/
  | nop
  /-- RST, opcode 0x01 (R151). -/
  | rst
  /-- RGN, opcode 0x10, `base = cmd[31:0]` (R125). -/
  | rgn (base : Word)
  /-- DAT, opcode 0x11, `v = cmd[7:0]` (R126). -/
  | dat (v : Byte)
  /-- END, opcode 0x12 (R130). -/
  | endRgn
  /-- FIN, opcode 0x20, `append = cmd[0]` (R114). -/
  | fin (append : Bool)
  /-- CHK, opcode 0x21, `value = cmd[31:0]` (R117). -/
  | chk (value : Word)
  /-- RD, opcode 0x30, `reg = cmd[7:0]`, 0 to 9 (R152). -/
  | rd (reg : Byte)
  deriving DecidableEq, Repr

end Sys2Proof
end

