-- ==== Sys2Proof/WellFormed.lean ====
section
/-! DEFINITION. Which commands have a legal encoding (R82): the one limit that an operand's width does not
already state is RD's register index. -/

namespace Sys2Proof

/-- The operand is one that rule R82 lets a legal word carry: `reg <= 9` for RD, anything for the rest. -/
def Instr.wellFormed : Instr → Bool
  | .nop => true
  | .rst => true
  | .rgn _ => true
  | .dat _ => true
  | .endRgn => true
  | .fin _ => true
  | .chk _ => true
  | .rd reg => decide (reg.toNat ≤ 9)

end Sys2Proof
end

