-- ==== Sys2Proof/Decode.lean ====
section
/-! DEFINITION. The command word: its decoder, total on all 2^40 words and rejecting by name, and its
encoder (R80 to R83). -/

namespace Sys2Proof

/-- Why a word is no command (R83). -/
inductive DecodeError where
  /-- The opcode is none of the eight of R81. -/
  | undefinedOpcode (opcode : Byte)
  /-- A bit is set in a field that rule R82 says must be zero. -/
  | reservedBits (opcode : Byte)
  /-- RD of an index above 9. -/
  | reservedRegister (reg : Byte)
  deriving DecidableEq, Repr

/-! The opcode map (R81). -/

/-- Opcode of NOP. -/
abbrev Opcode.nop : Byte := 0x00#8
/-- Opcode of RST. -/
abbrev Opcode.rst : Byte := 0x01#8
/-- Opcode of RGN. -/
abbrev Opcode.rgn : Byte := 0x10#8
/-- Opcode of DAT. -/
abbrev Opcode.dat : Byte := 0x11#8
/-- Opcode of END. -/
abbrev Opcode.endRgn : Byte := 0x12#8
/-- Opcode of FIN. -/
abbrev Opcode.fin : Byte := 0x20#8
/-- Opcode of CHK. -/
abbrev Opcode.chk : Byte := 0x21#8
/-- Opcode of RD. -/
abbrev Opcode.rd : Byte := 0x30#8

/-- `cmd[39:32]` (R80). -/
def cmdOpcode (w : CmdWord) : Byte := w.extractLsb' 32 8

/-- `cmd[31:0]` (R80). -/
def cmdOperand (w : CmdWord) : Word := w.extractLsb' 0 32

/-- A command whose operand must be zero (NOP, RST, END in R82). -/
def decodeBare (opcode : Byte) (operand : Word) (i : Instr) : Except DecodeError Instr :=
  if operand = 0#32 then .ok i else .error (.reservedBits opcode)

/-- The command an opcode and an operand stand for (R81, R82), or why there is none (R83). -/
def decodeFields (opcode : Byte) (operand : Word) : Except DecodeError Instr :=
  if opcode = Opcode.nop then decodeBare opcode operand .nop
  else if opcode = Opcode.rst then decodeBare opcode operand .rst
  else if opcode = Opcode.rgn then .ok (.rgn operand)
  else if opcode = Opcode.dat then
    if operand.extractLsb' 8 24 = 0#24 then .ok (.dat (operand.extractLsb' 0 8))
    else .error (.reservedBits opcode)
  else if opcode = Opcode.endRgn then decodeBare opcode operand .endRgn
  else if opcode = Opcode.fin then
    if operand.extractLsb' 1 31 = 0#31 then .ok (.fin (operand.getLsbD 0))
    else .error (.reservedBits opcode)
  else if opcode = Opcode.chk then .ok (.chk operand)
  else if opcode = Opcode.rd then
    if operand.extractLsb' 8 24 = 0#24 then
      if (operand.extractLsb' 0 8).toNat ≤ 9 then .ok (.rd (operand.extractLsb' 0 8))
      else .error (.reservedRegister (operand.extractLsb' 0 8))
    else .error (.reservedBits opcode)
  else .error (.undefinedOpcode opcode)

/-- The decoder of a command word (R80 to R83). -/
def decode (w : CmdWord) : Except DecodeError Instr :=
  decodeFields (cmdOpcode w) (cmdOperand w)

/-- The opcode byte of a command (R81). -/
def Instr.opcode : Instr → Byte
  | .nop => Opcode.nop
  | .rst => Opcode.rst
  | .rgn _ => Opcode.rgn
  | .dat _ => Opcode.dat
  | .endRgn => Opcode.endRgn
  | .fin _ => Opcode.fin
  | .chk _ => Opcode.chk
  | .rd _ => Opcode.rd

/-- The operand field of a command, must-be-zero bits at 0 (R82). -/
def Instr.operand : Instr → Word
  | .nop => 0#32
  | .rst => 0#32
  | .rgn base => base
  | .dat v => v.setWidth 32
  | .endRgn => 0#32
  | .fin append => (BitVec.ofBool append).setWidth 32
  | .chk value => value
  | .rd reg => reg.setWidth 32

/-- The word `opcode << 32 | operand` (00_scope.md section 5; R80). -/
def encode (i : Instr) : CmdWord := i.opcode ++ i.operand

/-! The match and mask values of 30_encoding.md section 2, which R83 sums up: a word is a command when it
matches a row and, for RD, its index is at most 9. -/

/-- `mask` of the command's row: its opcode and its must-be-zero bits. -/
def Instr.mask : Instr → CmdWord
  | .nop => 0xFFFFFFFFFF#40
  | .rst => 0xFFFFFFFFFF#40
  | .rgn _ => 0xFF00000000#40
  | .dat _ => 0xFFFFFFFF00#40
  | .endRgn => 0xFFFFFFFFFF#40
  | .fin _ => 0xFFFFFFFFFE#40
  | .chk _ => 0xFF00000000#40
  | .rd _ => 0xFFFFFFFF00#40

/-- `match` of the command's row. -/
def Instr.matchWord : Instr → CmdWord
  | .nop => 0x0000000000#40
  | .rst => 0x0100000000#40
  | .rgn _ => 0x1000000000#40
  | .dat _ => 0x1100000000#40
  | .endRgn => 0x1200000000#40
  | .fin _ => 0x2000000000#40
  | .chk _ => 0x2100000000#40
  | .rd _ => 0x3000000000#40

/-- The 40-bit word whose low `nbits` bits are `w`'s and whose other bits are 0. A command is one 40-bit
word, so bit 0 of the table is `cmd[0]`; no byte order enters, because no command is stored (R66). -/
def tableWord (nbits w : Nat) : CmdWord := BitVec.ofNat 40 (w % 2 ^ nbits)

/-- What the decoder reads from an instruction whose bits are `w` (the opcode table's numbering); bits past
a command word's forty make it no command. -/
def decodeTableWord (nbits w : Nat) : Option Instr :=
  if w % 2 ^ nbits < 2 ^ 40 then (decode (tableWord nbits w)).toOption else none

end Sys2Proof
end

