-- ==== Sys2Proof/Config.lean ====
section
/-! DEFINITION. The parameters of 00_scope.md section 4 (rules R3 to R9). Every one has the value the spec
gives it; the spec leaves no value of the block free, so there is no uninterpreted constant here. -/

namespace Sys2Proof

/-- The two conventions for a multi-byte frame field; the spec's FRAME_BYTE_ORDER (X1, D7). -/
inductive ByteOrder where
  /-- Least significant byte at the lowest offset. -/
  | little
  /-- Most significant byte at the lowest offset. -/
  | big
  deriving DecidableEq, Repr

/-- CHUNK, the payload bytes of a full packet (R3). -/
abbrev Config.chunk : Nat := 200

/-- FRAME, the bytes of a packet on the wire (R4). -/
abbrev Config.frame : Nat := 216

/-- GRAN, the flash-write granularity (R5). -/
abbrev Config.gran : Nat := 8

/-- CRC16_INIT (R6). -/
abbrev Config.crc16Init : Half := 0xFFFF#16

/-- CRC32_POLY (R7). -/
abbrev Config.crc32Poly : Word := 0x04C11DB7#32

/-- CRC32_INIT (R7). -/
abbrev Config.crc32Init : Word := 0xFFFFFFFF#32

/-- CRC32_XOROUT (R7). -/
abbrev Config.crc32Xorout : Word := 0x00000000#32

/-- BOOT_CHAR, the character `*` (R8; its code is general knowledge, log entry 14). -/
abbrev Config.bootChar : Byte := 0x2A#8

/-- UPDATE_CHAR, the character `u` (R8; its code is general knowledge, log entry 14). -/
abbrev Config.updateChar : Byte := 0x75#8

/-- EOP_CHAR, the newline character (R8; its code is general knowledge, log entry 14). -/
abbrev Config.eopChar : Byte := 0x0A#8

/-- PAD_VALUE, the six pad bytes of a frame (R9, R75; log entry 12). -/
abbrev Config.padValue : Byte := 0x00#8

/-- FRAME_BYTE_ORDER, the order of `address` and `data_crc16` in a frame (R54; log entry 11). -/
abbrev Config.frameByteOrder : ByteOrder := .little

end Sys2Proof
end

