-- ==== Sys2Proof/Machine/State.lean ====
section
/-! DEFINITION. The state of the block (10_state.md), its reset value (R39), and the reasons a step could
stop. -/

namespace Sys2Proof.Machine

/-- PHASE: which commands are in sequence (R28; log entry 8). -/
inductive Phase where
  /-- IDLE: no region is open and the image is not finalised. -/
  | idle
  /-- OPEN: a region was begun by RGN and not yet ended by END. -/
  | regionOpen
  /-- DONE: FIN was executed and the image results are captured. -/
  | done
  deriving DecidableEq, Repr

/-- The six fault causes of R165. -/
inductive FaultCode where
  /-- F_ILLEGAL: the command word is not a legal encoding (R166). -/
  | illegal
  /-- F_SEQ: a legal command in a phase that does not allow it (R167). -/
  | seq
  /-- F_ALIGN: tail chunk length not a multiple of 8 (R168). -/
  | align
  /-- F_ADDR_OVF: the packet address reaches 2^32 (R169). -/
  | addrOvf
  /-- F_LEN_OVF: LENGTH plus `data_length` reaches 2^32 (R171). -/
  | lenOvf
  /-- F_MISMATCH: the recomputed CRC32 differs from the captured one (R172). -/
  | mismatch
  deriving DecidableEq, Repr

/-- What `raise Fault(code, info)` is given (R170). -/
structure FaultReport where
  /-- The cause, whose number goes to FAULT. -/
  code : FaultCode
  /-- The word that goes to FINFO. -/
  info : Word
  deriving DecidableEq, Repr

/-- One thing the host does to the block: it presents a command word on the CMD port (R53 (a)), or drives
the hardware reset input (R53 (d)). -/
inductive HostInput where
  /-- A word on the CMD port. -/
  | command (word : CmdWord)
  /-- The hardware reset (R190). -/
  | reset
  deriving DecidableEq, Repr

/-- Byte memory as data: (index, byte) pairs in rising order of index, none equal to what an unlisted index
reads as (`Memory.wf`; log entry 9). -/
abbrev Memory := List Host.Cell

/-- The block's state: every element of 10_state.md sections 1 to 5, the two output logs of R36 and R37
(log entry 3), and what the host will present next (log entry 1). -/
structure State where
  /-- CRC16, the running CRC of the open chunk (R20). -/
  crc16 : BitVec 16
  /-- CRC32_RUN, the running digest of the image (R21). -/
  crc32Run : BitVec 32
  /-- CRC32_A, `crc_a` from FIN on (R22). -/
  crc32A : BitVec 32
  /-- CRC32_OUT, the reported CRC32 from FIN on (R23). -/
  crc32Out : BitVec 32
  /-- LENGTH, the sum of `data_length` over the frames emitted (R24). -/
  length : BitVec 32
  /-- BASE, the base of the region that is or was last open (R25). -/
  base : BitVec 32
  /-- IDX, the frames emitted for that region (R26; log entry 7). -/
  idx : Nat
  /-- FILL, the bytes of the open chunk received so far (R27; log entry 6). -/
  fill : Fin 200
  /-- BUF, the bytes of the open chunk, zero past FILL (R30, R52). -/
  buf : Memory
  /-- PKT_COUNT, the frames emitted since reset (R31). -/
  pktCount : BitVec 32
  /-- PHASE (R28). -/
  phase : Phase
  /-- APPEND, the operand of the executed FIN (R29). -/
  append : Bool
  /-- FAULT, 0 for none (R32). -/
  fault : BitVec 8
  /-- FINFO (R32). -/
  finfo : BitVec 32
  /-- TX, the frames emitted, oldest first (R36). -/
  tx : List Frame
  /-- RSP, the words answered to RD, oldest first (R37). -/
  rsp : List Word
  /-- What the host will present, next one first; the model's own field (log entry 1). -/
  inputs : List HostInput
  deriving DecidableEq, Repr

/-- Every reason a step could STOP the machine, of which there is none: the spec's six faults are sticky
STATES with a successor (R170, R173, X10), and every command completes (R202). Log entry 4. -/
inductive Fault
  deriving DecidableEq, Repr

/-- A command the model would reject. -/
inductive Refusal where
  /-- Raised by an arm of `exec` that has no meaning yet; no arm is such, so no step raises it. Safe. -/
  | notModelled (mnemonic : String)
  deriving DecidableEq, Repr

/-- The machine right after hardware reset, with nothing yet observed and nothing presented (R39, R190). -/
def State.reset : State where
  crc16 := Config.crc16Init
  crc32Run := Config.crc32Init
  crc32A := 0x00000000#32
  crc32Out := 0x00000000#32
  length := 0#32
  base := 0#32
  idx := 0
  fill := 0
  buf := []
  pktCount := 0#32
  phase := .idle
  append := false
  fault := 0#8
  finfo := 0#32
  tx := []
  rsp := []
  inputs := []

end Sys2Proof.Machine
end

