-- ==== Sys2Proof/Machine/Ops.lean ====
section
/-! DEFINITION. The named operations every meaning is made of: the chunk buffer, byte order, the ports,
reset, and entering a fault (the block's one exception mechanism, R170, with its only way out, R176). -/

namespace Sys2Proof.Machine

/-! ### The chunk buffer space (R52, MemRead and MemWrite of 00_scope.md section 5) -/

/-- `MemRead(BUF, i, 1)`; an index that is not listed holds the reset value 0x00 (R30). -/
def Memory.read : Memory → Nat → Byte
  | [], _ => 0x00#8
  | (b, x) :: m, i => if i = b then x else Memory.read m i

/-- `MemWrite(BUF, i, 1, v)`, keeping the canonical form: a byte of 0x00 is not listed. -/
def Memory.write : Memory → Nat → Byte → Memory
  | [], i, v => if v = 0x00#8 then [] else [(i, v)]
  | (b, x) :: m, i, v =>
    if i < b then (if v = 0x00#8 then (b, x) :: m else (i, v) :: (b, x) :: m)
    else if i = b then (if v = 0x00#8 then m else (i, v) :: m)
    else (b, x) :: Memory.write m i v

/-- The canonical form: indices below 200 and strictly rising, no byte 0x00 listed. -/
def Memory.wf : Memory → Bool
  | [] => true
  | (b, x) :: m =>
    decide (b < 200) && decide (x ≠ 0x00#8) && m.all (fun c => decide (b < c.1)) && Memory.wf m

/-- `BUF[0..n)`. -/
def Memory.slice (m : Memory) (n : Nat) : List Byte := (List.range n).map m.read

/-- `zeros(200)`, the buffer at reset and after every emission (R30). -/
def Memory.zeros : Memory := []

/-! ### Byte order (00_scope.md section 5; R54, R57) -/

/-- `le16(v)`. -/
def le16 (v : Half) : List Byte := [v.extractLsb' 0 8, v.extractLsb' 8 8]

/-- `le32(v)`. -/
def le32 (v : Word) : List Byte :=
  [v.extractLsb' 0 8, v.extractLsb' 8 8, v.extractLsb' 16 8, v.extractLsb' 24 8]

/-- The bytes of a 16-bit frame field under a byte-order convention (X1). -/
def halfBytes (order : ByteOrder) (v : Half) : List Byte :=
  match order with
  | .little => le16 v
  | .big => (le16 v).reverse

/-- The bytes of a 32-bit frame field under a byte-order convention (X1). -/
def wordBytes (order : ByteOrder) (v : Word) : List Byte :=
  match order with
  | .little => le32 v
  | .big => (le32 v).reverse

/-! ### Ports (R53) -/

/-- `RSP.put(v)` (R37). -/
def putResponse (v : Word) (s : State) : State := { s with rsp := s.rsp ++ [v] }

/-- What the TX port has delivered: the frames in order, each from offset 0 to its last (R53 (c), R76). -/
def txStream (s : State) : List Byte := s.tx.flatten

/-- The state once the host has presented one thing and has `rest` still to present. -/
def takeInput (rest : List HostInput) (s : State) : State := { s with inputs := rest }

/-- The next thing the host presents, and the state with it taken from the port; none when the host
presents nothing. -/
def fetch (s : State) : Option (HostInput × State) :=
  match s.inputs with
  | [] => none
  | h :: rest => some (h, takeInput rest s)

/-- The state with a word presented on the CMD port ahead of everything else. -/
def present (w : CmdWord) (s : State) : State := { s with inputs := .command w :: s.inputs }

/-! ### Reset (R39, R190, R191, R192) -/

/-- Every state element at its reset value; what already left the block stays in the logs (R192), and what
the host has yet to present stays with the host. -/
def resetBlock (s : State) : State :=
  { State.reset with tx := s.tx, rsp := s.rsp, inputs := s.inputs }

/-! ### Faults (60_exceptions.md) -/

/-- The code number of a cause (R165). -/
def FaultCode.number : FaultCode → BitVec 8
  | .illegal => 1#8
  | .seq => 2#8
  | .align => 3#8
  | .addrOvf => 4#8
  | .lenOvf => 5#8
  | .mismatch => 6#8

/-- `raise Fault(code, info)`: FAULT and FINFO are written and nothing else changes (R170). -/
def raiseFault (f : FaultReport) (s : State) : State :=
  { s with fault := f.code.number, finfo := f.info }

/-- The fault of a word that is no legal encoding: FINFO receives the opcode byte (R166). -/
def illegalFault (opcode : Byte) : FaultReport := ⟨.illegal, opcode.setWidth 32⟩

/-- The fault of a command out of sequence: FINFO receives the opcode byte (R167). -/
def seqFault (opcode : Byte) : FaultReport := ⟨.seq, opcode.setWidth 32⟩

/-- How the block executes every command but RST and RD: while FAULT is not 0 the command is ignored
(R173); else it has its whole effect or, if a check of it fails, enters the fault and has no other effect
(R170). -/
def attempt (body : State → Except FaultReport State) (s : State) : Host.Outcome State Fault Refusal :=
  if s.fault = 0#8 then
    match body s with
    | .ok t => .next t
    | .error f => .next (raiseFault f s)
  else .next s

/-- The only way out of a fault (R176): the same reset as at power-on, which restores nothing of the
failed image. RST and the hardware reset input both lead here (R191). -/
def leaveFault (s : State) : Host.Outcome State Fault Refusal := .next (resetBlock s)

/-- What the block does with a word that is no command (R83, R84, R166): F_ILLEGAL, or nothing while
faulted. -/
def rejectWord (opcode : Byte) (s : State) : Host.Outcome State Fault Refusal :=
  attempt (fun _ => .error (illegalFault opcode)) s

end Sys2Proof.Machine
end

