-- ==== Sys2Proof/Machine/Flags.lean ====
section
/-! DEFINITION. The flags of the block and STATUS (R28, R29, R32, R34). There are no arithmetic condition
codes (10_state.md section 3): no command sets a flag from a computed value. -/

namespace Sys2Proof.Machine

/-- The flag OPEN: 1 while a region is open (R28). -/
def openFlag (s : State) : Bool := decide (s.phase = .regionOpen)

/-- The flag DONE: 1 after FIN (R28). -/
def doneFlag (s : State) : Bool := decide (s.phase = .done)

/-- STATUS (R34): FAULT in [15:8], APPEND in bit 2, DONE in bit 1, OPEN in bit 0, every other bit 0. -/
def status (s : State) : Word :=
  (s.fault.setWidth 32 <<< 8) ||| ((BitVec.ofBool s.append).setWidth 32 <<< 2) |||
    ((BitVec.ofBool (doneFlag s)).setWidth 32 <<< 1) ||| (BitVec.ofBool (openFlag s)).setWidth 32

end Sys2Proof.Machine
end

