-- ==== Sys2Proof/Machine/Operands.lean ====
section
/-! DEFINITION. What an operand selects: the register file that RD's index reads (R33 to R35), and the
packet address. The other operand forms (base, value, data byte, append bit) are values taken as they stand
(R82), which the decoder already gives. -/

namespace Sys2Proof.Machine

/-- `BASE + IDX * 200` as a natural number, not truncated (R127, R133). -/
def packetAddress (s : State) : Nat := s.base.toNat + s.idx * Config.chunk

/-- ADDR, register 6: the packet address truncated to 32 bits, computed at the read (R35). -/
def addrRegister (s : State) : Word := BitVec.ofNat 32 (packetAddress s)

/-- `x[i]` of the register file (R33): the ten registers, narrower ones zero-extended; a reserved index has
no value. -/
def readRegister (s : State) (reg : Byte) : Option Word :=
  match reg.toNat with
  | 0 => some (status s)
  | 1 => some (s.crc16.setWidth 32)
  | 2 => some s.crc32Run
  | 3 => some s.crc32A
  | 4 => some s.crc32Out
  | 5 => some s.length
  | 6 => some (addrRegister s)
  | 7 => some (BitVec.ofNat 32 s.fill.val)
  | 8 => some s.pktCount
  | 9 => some s.finfo
  | _ => none

end Sys2Proof.Machine
end

