-- ==== Sys2Proof/Machine/Control.lean ====
section
/-! DEFINITION. The control commands NOP, RST and RD (43_control.md). -/

namespace Sys2Proof.Machine

/-- NOP (R150): no effect, faulted or not. -/
def execNop (s : State) : Host.Outcome State Fault Refusal :=
  attempt (fun t => .ok t) s

/-- RST (R151): the effect of hardware reset, in every phase and in the faulted state (R191). -/
def execRst (s : State) : Host.Outcome State Fault Refusal :=
  leaveFault s

/-- RD (R152): the register's value to RSP, in every phase and in the faulted state; a reserved index is an
illegal word. -/
def execRd (reg : Byte) (s : State) : Host.Outcome State Fault Refusal :=
  match readRegister s reg with
  | some v => .next (putResponse v s)
  | none => rejectWord Opcode.rd s

end Sys2Proof.Machine
end

