-- ==== Sys2Proof/Machine/Crc16.lean ====
section
/-! DEFINITION. U1, the per-packet CRC16 generator (40_crc16.md). It has no command of its own: RGN, DAT and
END drive it (R103). -/

namespace Sys2Proof.Machine

/-- `crc16_step(c, v)`: the five statements of R100, every intermediate value 16 bits wide (R101). -/
def crc16Step (c : Half) (v : Byte) : Half :=
  let t1 := (c >>> 8) ||| (c <<< 8)
  let t2 := t1 ^^^ v.setWidth 16
  let t3 := t2 ^^^ ((t2 &&& 0xFF#16) >>> 4)
  let t4 := t3 ^^^ ((t3 <<< 8) <<< 4)
  t4 ^^^ (((t4 &&& 0xFF#16) <<< 4) <<< 1)

/-- `crc16(data)`: the left fold from 0xFFFF (R102). -/
def crc16 (data : List Byte) : Half := data.foldl crc16Step Config.crc16Init

end Sys2Proof.Machine
end

