-- ==== Sys2Proof/Machine/Crc32.lean ====
section
/-! DEFINITION. U2, the whole-image CRC32 engine and its commands FIN and CHK (41_crc32.md). -/

namespace Sys2Proof.Machine

/-- One shift of the loop of R110. -/
def crc32Shift (c : Word) : Word :=
  if c.getLsbD 31 then (c <<< 1) ^^^ Config.crc32Poly else c <<< 1

/-- `n` shifts. -/
def crc32Shifts : Nat → Word → Word
  | 0, c => c
  | n + 1, c => crc32Shifts n (crc32Shift c)

/-- `crc32_step(c, v)`: the byte into bits 31:24, then eight shifts (R110; one byte at a time, R111). -/
def crc32Step (c : Word) (v : Byte) : Word := crc32Shifts 8 (c ^^^ (v.setWidth 32 <<< 24))

/-- The digest after a run of bytes. -/
def crc32Feed (c : Word) (data : List Byte) : Word := data.foldl crc32Step c

/-- `finalize(c) = c ^ CRC32_XOROUT` (R112). -/
def crc32Finalize (c : Word) : Word := c ^^^ Config.crc32Xorout

/-- `crc32(data)`: the left fold from 0xFFFFFFFF, finalized (R112). -/
def crc32 (data : List Byte) : Word := crc32Finalize (crc32Feed Config.crc32Init data)

/-- FIN's effect and its check (R114; the feedback order is that of R115). -/
def finEffect (append : Bool) (s : State) : Except FaultReport State :=
  if s.phase = .idle then
    let crcA := crc32Finalize s.crc32Run
    let run := if append then crc32Feed s.crc32Run (le32 crcA) else s.crc32Run
    .ok { s with crc32Run := run, crc32A := crcA, crc32Out := run, append := append, phase := .done }
  else .error (seqFault Opcode.fin)

/-- FIN (R114). -/
def execFin (append : Bool) (s : State) : Host.Outcome State Fault Refusal :=
  attempt (finEffect append) s

/-- CHK's effect, which is none, and its checks (R117). -/
def chkEffect (value : Word) (s : State) : Except FaultReport State :=
  if s.phase = .done then
    if value = s.crc32Out then .ok s else .error ⟨.mismatch, value⟩
  else .error (seqFault Opcode.chk)

/-- CHK (R117). -/
def execChk (value : Word) (s : State) : Host.Outcome State Fault Refusal :=
  attempt (chkEffect value) s

end Sys2Proof.Machine
end

