-- ==== Sys2Proof/Machine/Packet.lean ====
section
/-! DEFINITION. U3, the packet encoder: the frame (30_encoding.md), the emission procedure, and the commands
RGN, DAT and END (42_packet_encoder.md). -/

namespace Sys2Proof.Machine

/-- The frame of R72 under a byte-order convention and a pad value, the two parameters of X1 and X4. -/
def encodeFrameWith (order : ByteOrder) (pad : Byte) (address : Word) (k : Nat) (crc : Half)
    (data : List Byte) : Frame :=
  [Config.bootChar, Config.updateChar]
    ++ [pad, pad]
    ++ wordBytes order address
    ++ [BitVec.ofNat 8 k]
    ++ [pad]
    ++ halfBytes order crc
    ++ data ++ List.replicate (Config.chunk - k) 0x00#8
    ++ [Config.eopChar]
    ++ [pad, pad, pad]

/-- `encode_frame(address, k, crc, data)` (R72). -/
def encodeFrame (address : Word) (k : Nat) (crc : Half) (data : List Byte) : Frame :=
  encodeFrameWith Config.frameByteOrder Config.padValue address k crc data

/-- The writes of an emission that passes its checks (R127): the frame to TX, the counters, and U1, FILL
and BUF made ready for the next chunk. -/
def sendFrame (frame : Frame) (k : Nat) (s : State) : State :=
  { s with
    tx := s.tx ++ [frame]
    length := BitVec.ofNat 32 (s.length.toNat + k)
    pktCount := s.pktCount + 1#32
    idx := s.idx + 1
    fill := 0
    crc16 := Config.crc16Init
    buf := Memory.zeros }

/-- `EMIT(k, crc, data)` (R127): the address check (R138), the length check (R139), then the emission. -/
def emit (k : Nat) (crc : Half) (data : List Byte) (s : State) : Except FaultReport State :=
  if 2 ^ 32 ≤ packetAddress s then .error ⟨.addrOvf, BitVec.ofNat 32 s.idx⟩
  else if 2 ^ 32 ≤ s.length.toNat + k then .error ⟨.lenOvf, s.length⟩
  else .ok (sendFrame (encodeFrame (BitVec.ofNat 32 (packetAddress s)) k crc data) k s)

/-- RGN's effect and its check (R125). -/
def rgnEffect (base : Word) (s : State) : Except FaultReport State :=
  if s.phase = .idle then
    .ok { s with base := base, idx := 0, fill := 0, crc16 := Config.crc16Init, phase := .regionOpen }
  else .error (seqFault Opcode.rgn)

/-- RGN (R125). -/
def execRgn (base : Word) (s : State) : Host.Outcome State Fault Refusal :=
  attempt (rgnEffect base) s

/-- A byte that does not complete a chunk (R126, R136): to BUF at index FILL, to U1 and to U2. -/
def storeByte (v : Byte) (s : State) : State :=
  { s with
    buf := s.buf.write s.fill.val v
    fill := s.fill + 1
    crc16 := crc16Step s.crc16 v
    crc32Run := crc32Step s.crc32Run v }

/-- The 200th byte of a chunk (R126): the frame goes out at once and, if it does, U2 takes the byte. -/
def completeChunk (v : Byte) (s : State) : Except FaultReport State :=
  match emit Config.chunk (crc16Step s.crc16 v) (s.buf.slice 199 ++ [v]) s with
  | .ok t => .ok { t with crc32Run := crc32Step s.crc32Run v }
  | .error f => .error f

/-- DAT's effect and its checks (R126). -/
def datEffect (v : Byte) (s : State) : Except FaultReport State :=
  if s.phase = .regionOpen then
    if s.fill.val < 199 then .ok (storeByte v s) else completeChunk v s
  else .error (seqFault Opcode.dat)

/-- DAT (R126). -/
def execDat (v : Byte) (s : State) : Host.Outcome State Fault Refusal :=
  attempt (datEffect v) s

/-- The tail chunk of a region (R130): its frame goes out and, if it does, the region is closed. -/
def emitTail (s : State) : Except FaultReport State :=
  match emit s.fill.val s.crc16 (s.buf.slice s.fill.val) s with
  | .ok t => .ok { t with phase := .idle }
  | .error f => .error f

/-- END's effect and its checks (R130; R131 for the tail's length, R132 for no tail). -/
def endEffect (s : State) : Except FaultReport State :=
  if s.phase = .regionOpen then
    if s.fill.val = 0 then .ok { s with phase := .idle }
    else if s.fill.val % Config.gran ≠ 0 then .error ⟨.align, BitVec.ofNat 32 s.fill.val⟩
    else emitTail s
  else .error (seqFault Opcode.endRgn)

/-- END (R130). -/
def execEndRgn (s : State) : Host.Outcome State Fault Refusal :=
  attempt endEffect s

end Sys2Proof.Machine
end

