-- ==== Sys2Proof/Machine/Dispatch.lean ====
section
/-! DEFINITION. One arm per command, each a direct call of its meaning. -/

namespace Sys2Proof.Machine

def exec (i : Instr) (s : State) : Host.Outcome State Fault Refusal :=
  match i with
  | .nop => Sys2Proof.Machine.execNop s
  | .rst => Sys2Proof.Machine.execRst s
  | .rgn base => Sys2Proof.Machine.execRgn base s
  | .dat v => Sys2Proof.Machine.execDat v s
  | .endRgn => Sys2Proof.Machine.execEndRgn s
  | .fin append => Sys2Proof.Machine.execFin append s
  | .chk value => Sys2Proof.Machine.execChk value s
  | .rd reg => Sys2Proof.Machine.execRd reg s

end Sys2Proof.Machine
end

