-- ==== Sys2Proof/Machine/Step.lean ====
section
/-! DEFINITION. One step: the block takes the next thing the host presents and handles it whole (R10, R60).
The block has no program counter and fetches no stored program (R66, R193). -/

namespace Sys2Proof.Machine

/-- One transaction. With nothing presented the block waits (R193; log entry 2). A hardware reset resets
(R190). A command word is executed if it is a command (R81, R82) and rejected if it is not (R83). -/
def step (s : State) : Host.Outcome State Fault Refusal :=
  match fetch s with
  | none => .next s
  | some (.reset, t) => leaveFault t
  | some (.command w, t) =>
    match decode w with
    | .ok i => exec i t
    | .error _ => rejectWord (cmdOpcode w) t

/-- `s` with the host presenting, next, the command word whose bits are `w` in the opcode table's
numbering (log entry 1). -/
def State.withFetchWord (s : State) (nbits w : Nat) : State := present (tableWord nbits w) s

end Sys2Proof.Machine
end

