-- ==== Sys2Proof/Machine/Assembler.lean ====
section
/-! DEFINITION. The command text of 30_encoding.md section 4 (R86, R87): the words a line stands for. A text
is a list of characters. Where the spec shows no more than an example of the syntax, log entry 20 says how
the model reads it. -/

namespace Sys2Proof.Machine

/-! ### Pseudo-instructions (R87) -/

/-- `BYTES b0 b1 ... bn`: one DAT a byte, in order. -/
def asmBytes (data : List Byte) : List Instr := data.map Instr.dat

/-- `REGION base, b0 b1 ... bn`: RGN, the bytes, END. -/
def asmRegion (base : Word) (data : List Byte) : List Instr :=
  Instr.rgn base :: asmBytes data ++ [Instr.endRgn]

/-! ### One command (R86) -/

/-- The word `opcode << 32 | operand`, refused when R82 makes the operand illegal for the opcode or when it
does not fit in 32 bits. -/
def asmWord (opcode : Byte) (operand : Nat) : Option CmdWord :=
  if operand < 2 ^ 32 then
    match decodeFields opcode (BitVec.ofNat 32 operand) with
    | .ok _ => some (opcode ++ BitVec.ofNat 32 operand)
    | .error _ => none
  else none

/-- The mnemonics of R81 that take no operand. -/
def asmBareOpcode (mnemonic : List Char) : Option Byte :=
  if mnemonic = ['N', 'O', 'P'] then some Opcode.nop
  else if mnemonic = ['R', 'S', 'T'] then some Opcode.rst
  else if mnemonic = ['E', 'N', 'D'] then some Opcode.endRgn
  else none

/-- The mnemonics of R81 that take one operand. -/
def asmOperandOpcode (mnemonic : List Char) : Option Byte :=
  if mnemonic = ['R', 'G', 'N'] then some Opcode.rgn
  else if mnemonic = ['D', 'A', 'T'] then some Opcode.dat
  else if mnemonic = ['F', 'I', 'N'] then some Opcode.fin
  else if mnemonic = ['C', 'H', 'K'] then some Opcode.chk
  else if mnemonic = ['R', 'D'] then some Opcode.rd
  else none

/-- The register names of R33, which RD takes in place of an index. -/
def asmRegisterName (name : List Char) : Option Nat :=
  if name = ['S', 'T', 'A', 'T', 'U', 'S'] then some 0
  else if name = ['C', 'R', 'C', '1', '6'] then some 1
  else if name = ['C', 'R', 'C', '3', '2', '_', 'R', 'U', 'N'] then some 2
  else if name = ['C', 'R', 'C', '3', '2', '_', 'A'] then some 3
  else if name = ['C', 'R', 'C', '3', '2', '_', 'O', 'U', 'T'] then some 4
  else if name = ['L', 'E', 'N', 'G', 'T', 'H'] then some 5
  else if name = ['A', 'D', 'D', 'R'] then some 6
  else if name = ['F', 'I', 'L', 'L'] then some 7
  else if name = ['P', 'K', 'T', '_', 'C', 'O', 'U', 'N', 'T'] then some 8
  else if name = ['F', 'I', 'N', 'F', 'O'] then some 9
  else none

/-! ### Numbers: decimal, or hexadecimal after `0x` (R86) -/

/-- The value of a digit in a base of at most 16; a hexadecimal letter may be of either case (lower case:
DESIGN CHOICE, log entry 20). -/
def asmDigit (base : Nat) (c : Char) : Option Nat :=
  let n := c.toNat
  let d := if 48 ≤ n ∧ n ≤ 57 then n - 48
    else if 65 ≤ n ∧ n ≤ 70 then n - 55
    else if 97 ≤ n ∧ n ≤ 102 then n - 87
    else base
  if d < base then some d else none

/-- The number a run of digits stands for, after the digits already read. -/
def asmDigits (base : Nat) : Nat → List Char → Option Nat
  | n, [] => some n
  | n, c :: cs =>
    match asmDigit base c with
    | some d => asmDigits base (n * base + d) cs
    | none => none

/-- A number of R86; the empty run of digits is none. -/
def asmNumber : List Char → Option Nat
  | [] => none
  | ['0', 'x'] => none
  | '0' :: 'x' :: digits => asmDigits 16 0 digits
  | digits => asmDigits 10 0 digits

/-! ### Lines -/

/-- White space within a line. -/
def asmBlank (c : Char) : Bool := decide (c = ' ') || decide (c = '\t') || decide (c = '\r')

/-- The tokens of a line without its comment: runs of other characters, and `,` alone. The first argument is
the token being read, last character first. -/
def asmTokens : List Char → List Char → List (List Char)
  | token, [] => if token = [] then [] else [token.reverse]
  | token, c :: cs =>
    let flush := if token = [] then [] else [token.reverse]
    if c = ';' then flush
    else if asmBlank c then flush ++ asmTokens [] cs
    else if c = ',' then flush ++ [','] :: asmTokens [] cs
    else asmTokens (c :: token) cs

/-- All of a list's results, or none if one is missing. -/
def asmAll {α β : Type} (f : α → Option β) : List α → Option (List β)
  | [] => some []
  | x :: xs =>
    match f x, asmAll f xs with
    | some y, some ys => some (y :: ys)
    | _, _ => none

/-- A byte operand of a pseudo-instruction, as the word of its DAT. -/
def asmDatWord (token : List Char) : Option CmdWord := (asmNumber token).bind (asmWord Opcode.dat)

/-- A `BYTES` list of at least one byte. -/
def asmBytesWords (tokens : List (List Char)) : Option (List CmdWord) :=
  if tokens = [] then none else asmAll asmDatWord tokens

/-- A line given by its tokens: nothing, a command, BYTES or REGION. REGION takes the bytes that R87 lists and
nothing else: a text, as the worked example of R114 writes after its comma, is refused (DESIGN CHOICE, log
entry 20). -/
def asmTokenLine : List (List Char) → Option (List CmdWord)
  | [] => some []
  | [mnemonic] => (asmBareOpcode mnemonic).bind fun op => (asmWord op 0).map fun w => [w]
  | mnemonic :: operand :: rest =>
    if mnemonic = ['B', 'Y', 'T', 'E', 'S'] then asmBytesWords (operand :: rest)
    else if mnemonic = ['R', 'E', 'G', 'I', 'O', 'N'] then
      match rest with
      | [','] :: bytes =>
        match (asmNumber operand).bind (asmWord Opcode.rgn), asmBytesWords bytes, asmWord Opcode.endRgn 0 with
        | some r, some ds, some e => some (r :: ds ++ [e])
        | _, _, _ => none
      | _ => none
    else if rest = [] then
      (asmOperandOpcode mnemonic).bind fun op =>
        let value := if op = Opcode.rd then (asmRegisterName operand).or (asmNumber operand)
          else asmNumber operand
        (value.bind (asmWord op)).map fun w => [w]
    else none

/-- The characters of `ASCII "text"` up to the closing quote (character 34), and what follows it. -/
def asmQuoted : List Char → Option (List Char × List Char)
  | [] => none
  | c :: cs =>
    if c.toNat = 34 then some ([], cs)
    else (asmQuoted cs).map fun p => (c :: p.1, p.2)

/-- The DAT word of a character, by its ASCII code; a character that has none is refused. -/
def asmAsciiWord (c : Char) : Option CmdWord :=
  if c.toNat < 128 then asmWord Opcode.dat c.toNat else none

/-- The operand of `ASCII`, after its blanks: a quoted text, then nothing but blanks or a comment. -/
def asmAsciiLine (operand : List Char) : Option (List CmdWord) :=
  match operand with
  | [] => none
  | c :: cs =>
    if c.toNat = 34 then
      match asmQuoted cs with
      | some (text, after) => if asmTokens [] after = [] then asmAll asmAsciiWord text else none
      | none => none
    else none

/-- One line of text (R86, R87). -/
def asmLine (line : List Char) : Option (List CmdWord) :=
  match line.dropWhile asmBlank with
  | 'A' :: 'S' :: 'C' :: 'I' :: 'I' :: c :: rest =>
    if asmBlank c then asmAsciiLine (rest.dropWhile asmBlank) else asmTokenLine (asmTokens [] line)
  | _ => asmTokenLine (asmTokens [] line)

/-- The lines of a text; the first argument is the line being read, last character first. -/
def asmLines : List Char → List Char → List (List Char)
  | line, [] => [line.reverse]
  | line, c :: cs => if c = '\n' then line.reverse :: asmLines [] cs else asmLines (c :: line) cs

/-- The command words a text stands for, line after line; a refused line refuses the whole text (DESIGN CHOICE,
log entry 20). -/
def assemble (text : List Char) : Option (List CmdWord) :=
  (asmAll asmLine (asmLines [] text)).map List.flatten

end Sys2Proof.Machine
end

