-- ==== Sys2Proof/Safety.lean ====
section
/-! DEFINITION. The terms the claims are stated in: a frame as its receiver reads it (R77), the image a run
has built (R38, R204), the invariant of every command boundary (R38), and the batch view of packetizing
(R140, R141). No definition of the machine uses this file. -/

namespace Sys2Proof.Safety

open Sys2Proof.Machine

/-! ### A frame as read by offset (R70, R73) -/

/-- The byte at an offset; 0 past the end. -/
def frameByte (f : Frame) (offset : Nat) : Byte := f.getD offset 0#8

/-- `address`: offsets 4 to 7, least significant first. -/
def frameAddress (f : Frame) : Word :=
  frameByte f 7 ++ frameByte f 6 ++ frameByte f 5 ++ frameByte f 4

/-- `data_length`: offset 8. -/
def frameLength (f : Frame) : Nat := (frameByte f 8).toNat

/-- `data_crc16`: offsets 10 and 11, least significant first. -/
def frameCrc (f : Frame) : Half := frameByte f 11 ++ frameByte f 10

/-- The logical payload: the first `data_length` bytes of the data field (R74). -/
def framePayload (f : Frame) : List Byte := (f.drop 12).take (frameLength f)

/-- What every frame of the block satisfies, the receiver's well-formedness check (R77). -/
structure FrameOk (f : Frame) : Prop where
  size : f.length = 216
  boot : frameByte f 0 = 0x2A#8
  update : frameByte f 1 = 0x75#8
  eop : frameByte f 212 = 0x0A#8
  pads : ∀ i ∈ [2, 3, 9, 213, 214, 215], frameByte f i = 0x00#8
  lengthPos : 1 ≤ frameLength f
  lengthMax : frameLength f ≤ 200
  lengthMod : frameLength f % 8 = 0
  zeroTail : ∀ i, i < 212 → 12 + frameLength f ≤ i → frameByte f i = 0x00#8
  crc : frameCrc f = crc16 (framePayload f)

/-! ### The image -/

/-- The frames emitted since the last reset: the last PKT_COUNT frames of TX (R38 item 6). -/
def imageFrames (s : State) : List Frame := s.tx.drop (s.tx.length - s.pktCount.toNat)

/-- The frames of the region that is or was last open: the last IDX frames of TX (R26). -/
def regionFrames (s : State) : List Frame := s.tx.drop (s.tx.length - s.idx)

/-- The logical payloads of those frames, concatenated in order (R204). -/
def emittedBytes (s : State) : List Byte := (imageFrames s).flatMap framePayload

/-- The `S` of R38 item 5: the emitted payloads and then the FILL bytes of the open chunk. -/
def imageBytes (s : State) : List Byte := emittedBytes s ++ s.buf.slice s.fill.val

/-- The run has produced an image (R204). -/
def ProducedImage (s : State) : Prop := s.fault = 0#8 ∧ s.phase = .done

/-- IDX stays where R137 says: each emission found its packet address below 2^32. -/
def IdxOk (s : State) : Prop := s.idx = 0 ∨ s.base.toNat + (s.idx - 1) * 200 < 2 ^ 32

/-- The invariant of every command boundary: items 2 to 7 of R38 (item 1 holds by `Phase`, and FILL's range
by its type), the buffer's canonical form, the frames' well-formedness (R77), the addresses of the region's
frames (R133, R142), the bound of R137, and the ranges of FAULT and FINFO (R165). -/
structure Inv (s : State) : Prop where
  bufWf : s.buf.wf = true
  fillClosed : s.phase ≠ .regionOpen → s.fill.val = 0
  bufZero : ∀ i, s.fill.val ≤ i → s.buf.read i = 0x00#8
  crc16Chunk : s.crc16 = crc16 (s.buf.slice s.fill.val)
  crc32Image : s.phase ≠ .done → s.crc32Run = crc32 (imageBytes s)
  pktCountTx : s.pktCount.toNat ≤ s.tx.length
  lengthSum : s.length.toNat = ((imageFrames s).map frameLength).sum
  framesOk : ∀ f ∈ s.tx, FrameOk f
  idxOk : IdxOk s
  idxPkt : s.idx ≤ s.pktCount.toNat
  addresses : ∀ j, j < s.idx →
    frameAddress ((regionFrames s).getD j []) = BitVec.ofNat 32 (s.base.toNat + j * 200)
  doneA : s.phase = .done → s.crc32A = crc32 (emittedBytes s)
  doneOut : s.phase = .done →
    s.crc32Out = if s.append then crc32 (emittedBytes s ++ le32 s.crc32A) else s.crc32A
  doneRun : s.phase = .done → s.crc32Run = s.crc32Out
  beforeDone : s.phase ≠ .done → s.crc32A = 0#32 ∧ s.crc32Out = 0#32 ∧ s.append = false
  faultCode : s.fault.toNat ≤ 6
  noFaultInfo : s.fault = 0#8 → s.finfo = 0#32

/-! ### Reset -/

/-- Every state element has the value of R39's table. -/
structure ResetValues (s : State) : Prop where
  crc16 : s.crc16 = 0xFFFF#16
  crc32Run : s.crc32Run = 0xFFFFFFFF#32
  crc32A : s.crc32A = 0x00000000#32
  crc32Out : s.crc32Out = 0x00000000#32
  length : s.length = 0#32
  base : s.base = 0#32
  idx : s.idx = 0
  fill : s.fill.val = 0
  buf : ∀ i, i < 200 → s.buf.read i = 0x00#8
  pktCount : s.pktCount = 0#32
  phase : s.phase = .idle
  append : s.append = false
  fault : s.fault = 0#8
  finfo : s.finfo = 0#32

/-! ### Commands -/

/-- The phase a command needs (R82); none for a command that is never out of sequence (R167). -/
def phaseNeeded : Instr → Option Phase
  | .nop => none
  | .rst => none
  | .rgn _ => some .idle
  | .dat _ => some .regionOpen
  | .endRgn => some .regionOpen
  | .fin _ => some .idle
  | .chk _ => some .done
  | .rd _ => none

/-- A word that matches a row of the match and mask table of 30_encoding.md section 2 and, for RD, has an
index of at most 9 (R81, R82, R83). -/
def LegalWord (w : CmdWord) : Prop :=
  w &&& 0xFFFFFFFFFF#40 = 0x0000000000#40 ∨
  w &&& 0xFFFFFFFFFF#40 = 0x0100000000#40 ∨
  w &&& 0xFF00000000#40 = 0x1000000000#40 ∨
  w &&& 0xFFFFFFFF00#40 = 0x1100000000#40 ∨
  w &&& 0xFFFFFFFFFF#40 = 0x1200000000#40 ∨
  w &&& 0xFFFFFFFFFE#40 = 0x2000000000#40 ∨
  w &&& 0xFF00000000#40 = 0x2100000000#40 ∨
  (w &&& 0xFFFFFFFF00#40 = 0x3000000000#40 ∧ (w.extractLsb' 0 8).toNat ≤ 9)

/-- The word with this opcode and operand is illegal: while unfaulted it raises F_ILLEGAL with the opcode
byte and has no other effect (R83, R166), and while faulted it has none at all (R84). -/
def IllegalWord (opcode : Byte) (operand : Word) : Prop :=
  ∀ (s : State) (rest : List HostInput), s.inputs = .command (opcode ++ operand) :: rest →
    (s.fault = 0#8 →
      step s = .next { s with inputs := rest, fault := 1#8, finfo := opcode.setWidth 32 }) ∧
    (s.fault ≠ 0#8 → step s = .next { s with inputs := rest })

/-- Commands one after another, up to a stop if there were one. -/
def execAll : List Instr → State → Host.Outcome State Fault Refusal
  | [], s => .next s
  | i :: is, s =>
    match exec i s with
    | .next t => execAll is t
    | .fault r => .fault r
    | .refused r => .refused r

/-! ### The batch view (R3, R133, R134) -/

/-- The frames of a run of bytes from an address on, at most `n` of them: successive chunks of 200 bytes. -/
def packetsFrom : Nat → Nat → List Byte → List Frame
  | 0, _, _ => []
  | n + 1, address, data =>
    if data = [] then []
    else
      encodeFrame (BitVec.ofNat 32 address) (data.take 200).length (crc16 (data.take 200)) (data.take 200)
        :: packetsFrom n (address + 200) (data.drop 200)

/-- All the frames of a region (it has no more chunks than bytes). -/
def packetize (base : Word) (data : List Byte) : List Frame :=
  packetsFrom data.length base.toNat data

/-! ### The command text (R86) -/

/-- What may stand on a line after its last token: blanks, a comment, both or nothing (R86; which characters
are blanks is log entry 20's). -/
def LineEnd (rest : List Char) : Prop :=
  ∃ blanks comment, rest = blanks ++ comment ∧ (∀ b ∈ blanks, asmBlank b = true) ∧
    (comment = [] ∨ ∃ c, comment = ';' :: c ∧ '\n' ∉ c)

/-! ### The bitwise CRC of R105 -/

/-- One shift of the loop of R105. -/
def crc16BitShift (c : Half) : Half :=
  if c.getLsbD 15 then (c <<< 1) ^^^ 0x1021#16 else c <<< 1

/-- One byte of the bitwise CRC with polynomial 0x1021, most significant bit first (R105). -/
def crc16BitStep (c : Half) (v : Byte) : Half :=
  crc16BitShift (crc16BitShift (crc16BitShift (crc16BitShift (crc16BitShift (crc16BitShift
    (crc16BitShift (crc16BitShift (c ^^^ (v.setWidth 16 <<< 8)))))))))

end Sys2Proof.Safety
end

