-- ==== Sys2Proof/Certificates/Slice0/Obligations.lean ====
section
/-! DEFINITION. The statements about the block, for the provers. -/

open Sys2Proof Sys2Proof.Machine Sys2Proof.Safety

/-! ### Reset -/

/-- R39, R190: the state right after hardware reset. -/
def Obligations.ResetStateHoldsTableValues : Prop :=
  ResetValues State.reset

/-- R151, R39, R190, R191: RST in every phase and in the faulted state, and the hardware reset input, put
every element at its reset value and recall no frame and no response; the illegal RST words. That the reset is
an entry of the list of inputs, that it falls between commands, and that neither reset erases what the host has
still to present (`t.inputs = s.inputs`) are the model's choices (log entries 1 and 5). -/
def Obligations.RstFollowsItsRule : Prop :=
  decode 0x0100000000#40 = .ok .rst ∧
  (∀ operand : Word, operand ≠ 0#32 → IllegalWord 0x01#8 operand) ∧
  (∀ s : State, ∃ t, exec .rst s = .next t ∧ ResetValues t ∧ t.tx = s.tx ∧ t.rsp = s.rsp ∧
    t.inputs = s.inputs) ∧
  (∀ (s : State) (rest : List HostInput), s.inputs = .reset :: rest →
    step s = exec .rst { s with inputs := rest })

/-! ### Decoding -/

/-- R80 to R82, 95_test_vectors.md section 2.5: words written out from the encoding tables. -/
def Obligations.TableWordsDecode : Prop :=
  decode 0x0000000000#40 = .ok .nop ∧
  decode 0x0100000000#40 = .ok .rst ∧
  decode 0x1008000000#40 = .ok (.rgn 0x08000000#32) ∧
  decode 0x1100000031#40 = .ok (.dat 0x31#8) ∧
  decode 0x1200000000#40 = .ok .endRgn ∧
  decode 0x2000000000#40 = .ok (.fin false) ∧
  decode 0x2000000001#40 = .ok (.fin true) ∧
  decode 0x21A19A6E15#40 = .ok (.chk 0xA19A6E15#32) ∧
  decode 0x3000000009#40 = .ok (.rd 9#8) ∧
  decode 0x1100000100#40 = .error (.reservedBits 0x11#8) ∧
  decode 0x300000000A#40 = .error (.reservedRegister 10#8) ∧
  decode 0xFF00000000#40 = .error (.undefinedOpcode 0xFF#8)

/-- R80 to R82: decoding the encoding of a well-formed command gives the command back, at every value of
its operand. -/
def Obligations.DecodeOfEncode : Prop :=
  ∀ i : Instr, i.wellFormed = true → decode (encode i) = .ok i

/-- R80 to R83: a word that decodes is the encoding of the command it decodes to, and that command is
well-formed: no bit of a legal word is ignored. -/
def Obligations.EncodeOfDecode : Prop :=
  ∀ (w : CmdWord) (i : Instr), decode w = .ok i → i.wellFormed = true ∧ encode i = w

/-- R81, R82, R83: a word is a command exactly if it matches a row of the match and mask table of
30_encoding.md section 2 and, for RD, its index is at most 9. -/
def Obligations.LegalWordsAreTheTable : Prop :=
  ∀ w : CmdWord, (∃ i, decode w = .ok i) ↔ LegalWord w

/-! ### The step -/

/-- A step takes the next command word from the port and is `exec` of the command it decodes to; the same
for the word that `withFetchWord` presents. -/
def Obligations.StepRunsDecodedCommand : Prop :=
  ∀ (s : State) (w : CmdWord) (i : Instr), decode w = .ok i →
    (∀ rest, s.inputs = .command w :: rest → step s = exec i { s with inputs := rest }) ∧
    step (s.withFetchWord 40 w.toNat) = exec i s

/-- R83, R166: every word that is not a legal encoding raises F_ILLEGAL with its opcode byte in every
unfaulted state, whatever the phase. -/
def Obligations.IllegalWordRaisesIllegal : Prop :=
  ∀ (s : State) (rest : List HostInput) (w : CmdWord), ¬ LegalWord w →
    s.fault = 0#8 → s.inputs = .command w :: rest →
    step s = .next { s with inputs := rest, fault := 1#8, finfo := (w.extractLsb' 32 8).setWidth 32 }

/-- The model's choice (log entry 2), after R193's "it waits in phase IDLE for the first command": a step with
nothing presented changes nothing. -/
def Obligations.StepWithNoInputWaits : Prop :=
  ∀ s : State, s.inputs = [] → step s = .next s

/-- R202: every step completes. That it takes the head of the list of inputs when there is one, also where it
resets the block, is the model's choice of log entry 1; that it completes with nothing presented and then takes
nothing is that of log entry 2. -/
def Obligations.EveryStepCompletes : Prop :=
  ∀ s : State, ∃ t, step s = .next t ∧ t.inputs = s.inputs.tail

/-! ### The commands, one by one -/

/-- R150. -/
def Obligations.NopFollowsItsRule : Prop :=
  decode 0x0000000000#40 = .ok .nop ∧
  (∀ operand : Word, operand ≠ 0#32 → IllegalWord 0x00#8 operand) ∧
  (∀ s : State, exec .nop s = .next s)

/-- R125: every operand is legal, and the three cases of RGN. -/
def Obligations.RgnFollowsItsRule : Prop :=
  (∀ base : Word, decode (0x10#8 ++ base) = .ok (.rgn base)) ∧
  ∀ (s : State) (base : Word),
    (s.fault ≠ 0#8 → exec (.rgn base) s = .next s) ∧
    (s.fault = 0#8 → s.phase ≠ .idle →
      exec (.rgn base) s = .next { s with fault := 2#8, finfo := 0x10#32 }) ∧
    (s.fault = 0#8 → s.phase = .idle →
      exec (.rgn base) s = .next
        { s with base := base, idx := 0, fill := 0, crc16 := 0xFFFF#16, phase := .regionOpen })

/-- R126: the words of DAT; where it is ignored and where it is out of sequence; a byte that does not
complete its chunk goes to BUF at index FILL, to U1 and to U2, and every other byte of BUF and every other
element stays; the 200th byte emits a full frame at once and prepares the next chunk, or, where the address
or the length overflows, faults and is not stored. -/
def Obligations.DatFollowsItsRule : Prop :=
  (∀ v : Byte, decode (0x11#8 ++ v.setWidth 32) = .ok (.dat v)) ∧
  (∀ operand : Word, operand.extractLsb' 8 24 ≠ 0#24 → IllegalWord 0x11#8 operand) ∧
  ∀ (s : State) (v : Byte),
    (s.fault ≠ 0#8 → exec (.dat v) s = .next s) ∧
    (s.fault = 0#8 → s.phase ≠ .regionOpen →
      exec (.dat v) s = .next { s with fault := 2#8, finfo := 0x11#32 }) ∧
    (s.fault = 0#8 → s.phase = .regionOpen → s.fill.val < 199 → s.buf.wf = true →
      ∃ t, exec (.dat v) s = .next t ∧
        t.fill.val = s.fill.val + 1 ∧
        t.crc16 = crc16Step s.crc16 v ∧
        t.crc32Run = crc32Step s.crc32Run v ∧
        (∀ i, t.buf.read i = if i = s.fill.val then v else s.buf.read i) ∧
        t = { s with fill := t.fill, crc16 := t.crc16, crc32Run := t.crc32Run, buf := t.buf }) ∧
    (s.fault = 0#8 → s.phase = .regionOpen → s.fill.val = 199 →
      s.base.toNat + s.idx * 200 < 2 ^ 32 → s.length.toNat + 200 < 2 ^ 32 →
      exec (.dat v) s = .next
        { s with
          tx := s.tx ++ [encodeFrame (BitVec.ofNat 32 (s.base.toNat + s.idx * 200)) 200
            (crc16Step s.crc16 v) (s.buf.slice 199 ++ [v])]
          length := BitVec.ofNat 32 (s.length.toNat + 200)
          pktCount := s.pktCount + 1#32
          idx := s.idx + 1
          fill := 0
          crc16 := 0xFFFF#16
          crc32Run := crc32Step s.crc32Run v
          buf := [] }) ∧
    (s.fault = 0#8 → s.phase = .regionOpen → s.fill.val = 199 →
      2 ^ 32 ≤ s.base.toNat + s.idx * 200 →
      exec (.dat v) s = .next { s with fault := 4#8, finfo := BitVec.ofNat 32 s.idx }) ∧
    (s.fault = 0#8 → s.phase = .regionOpen → s.fill.val = 199 →
      s.base.toNat + s.idx * 200 < 2 ^ 32 → 2 ^ 32 ≤ s.length.toNat + 200 →
      exec (.dat v) s = .next { s with fault := 5#8, finfo := s.length })

/-- R127: the emission procedure, its two checks in their order, and its writes. -/
def Obligations.EmitFollowsItsRule : Prop :=
  ∀ (s : State) (k : Nat) (crc : Half) (data : List Byte),
    (2 ^ 32 ≤ s.base.toNat + s.idx * 200 →
      emit k crc data s = .error ⟨.addrOvf, BitVec.ofNat 32 s.idx⟩) ∧
    (s.base.toNat + s.idx * 200 < 2 ^ 32 → 2 ^ 32 ≤ s.length.toNat + k →
      emit k crc data s = .error ⟨.lenOvf, s.length⟩) ∧
    (s.base.toNat + s.idx * 200 < 2 ^ 32 → s.length.toNat + k < 2 ^ 32 →
      ∃ t, emit k crc data s = .ok t ∧
        t.tx = s.tx ++ [encodeFrame (BitVec.ofNat 32 (s.base.toNat + s.idx * 200)) k crc data] ∧
        t.length.toNat = s.length.toNat + k ∧
        t.pktCount = s.pktCount + 1#32 ∧ t.idx = s.idx + 1 ∧ t.fill.val = 0 ∧ t.crc16 = 0xFFFF#16 ∧
        (∀ i, t.buf.read i = 0x00#8) ∧
        t = { s with tx := t.tx, length := t.length, pktCount := t.pktCount, idx := t.idx,
                     fill := t.fill, crc16 := t.crc16, buf := t.buf })

/-- R130, R131: the words of END; where it is ignored and where it is out of sequence; with no tail it
closes the region and emits nothing; a tail whose length is no multiple of 8 faults; any other tail is
emitted and the region closed, or, where the address or the length overflows, faults and stays open. -/
def Obligations.EndFollowsItsRule : Prop :=
  decode 0x1200000000#40 = .ok .endRgn ∧
  (∀ operand : Word, operand ≠ 0#32 → IllegalWord 0x12#8 operand) ∧
  ∀ s : State,
    (s.fault ≠ 0#8 → exec .endRgn s = .next s) ∧
    (s.fault = 0#8 → s.phase ≠ .regionOpen →
      exec .endRgn s = .next { s with fault := 2#8, finfo := 0x12#32 }) ∧
    (s.fault = 0#8 → s.phase = .regionOpen → s.fill.val = 0 →
      exec .endRgn s = .next { s with phase := .idle }) ∧
    (s.fault = 0#8 → s.phase = .regionOpen → s.fill.val % 8 ≠ 0 →
      exec .endRgn s = .next { s with fault := 3#8, finfo := BitVec.ofNat 32 s.fill.val }) ∧
    (s.fault = 0#8 → s.phase = .regionOpen → s.fill.val ≠ 0 → s.fill.val % 8 = 0 →
      s.base.toNat + s.idx * 200 < 2 ^ 32 → s.length.toNat + s.fill.val < 2 ^ 32 →
      exec .endRgn s = .next
        { s with
          tx := s.tx ++ [encodeFrame (BitVec.ofNat 32 (s.base.toNat + s.idx * 200)) s.fill.val
            s.crc16 (s.buf.slice s.fill.val)]
          length := BitVec.ofNat 32 (s.length.toNat + s.fill.val)
          pktCount := s.pktCount + 1#32
          idx := s.idx + 1
          fill := 0
          crc16 := 0xFFFF#16
          buf := []
          phase := .idle }) ∧
    (s.fault = 0#8 → s.phase = .regionOpen → s.fill.val ≠ 0 → s.fill.val % 8 = 0 →
      2 ^ 32 ≤ s.base.toNat + s.idx * 200 →
      exec .endRgn s = .next { s with fault := 4#8, finfo := BitVec.ofNat 32 s.idx }) ∧
    (s.fault = 0#8 → s.phase = .regionOpen → s.fill.val ≠ 0 → s.fill.val % 8 = 0 →
      s.base.toNat + s.idx * 200 < 2 ^ 32 → 2 ^ 32 ≤ s.length.toNat + s.fill.val →
      exec .endRgn s = .next { s with fault := 5#8, finfo := s.length })

/-- R114, R115: the words of FIN, and its four cases; with append the four bytes of `crc_a` go through the
digest, least significant first. -/
def Obligations.FinFollowsItsRule : Prop :=
  (∀ append : Bool, decode (0x20#8 ++ (BitVec.ofBool append).setWidth 32) = .ok (.fin append)) ∧
  (∀ operand : Word, operand.extractLsb' 1 31 ≠ 0#31 → IllegalWord 0x20#8 operand) ∧
  ∀ s : State,
    (∀ append, s.fault ≠ 0#8 → exec (.fin append) s = .next s) ∧
    (∀ append, s.fault = 0#8 → s.phase ≠ .idle →
      exec (.fin append) s = .next { s with fault := 2#8, finfo := 0x20#32 }) ∧
    (s.fault = 0#8 → s.phase = .idle →
      exec (.fin false) s = .next
        { s with crc32A := s.crc32Run, crc32Out := s.crc32Run, append := false, phase := .done }) ∧
    (s.fault = 0#8 → s.phase = .idle →
      ∃ b : Word,
        b = crc32Step (crc32Step (crc32Step (crc32Step s.crc32Run (s.crc32Run.extractLsb' 0 8))
          (s.crc32Run.extractLsb' 8 8)) (s.crc32Run.extractLsb' 16 8)) (s.crc32Run.extractLsb' 24 8) ∧
        exec (.fin true) s = .next
          { s with crc32A := s.crc32Run, crc32Run := b, crc32Out := b, append := true, phase := .done })

/-- R117: every operand is legal, and the four cases of CHK. -/
def Obligations.ChkFollowsItsRule : Prop :=
  (∀ value : Word, decode (0x21#8 ++ value) = .ok (.chk value)) ∧
  ∀ (s : State) (value : Word),
    (s.fault ≠ 0#8 → exec (.chk value) s = .next s) ∧
    (s.fault = 0#8 → s.phase ≠ .done →
      exec (.chk value) s = .next { s with fault := 2#8, finfo := 0x21#32 }) ∧
    (s.fault = 0#8 → s.phase = .done → value ≠ s.crc32Out →
      exec (.chk value) s = .next { s with fault := 6#8, finfo := value }) ∧
    (s.fault = 0#8 → s.phase = .done → value = s.crc32Out → exec (.chk value) s = .next s)

/-- R33, R34, R35: what RD of registers 0 to 9 puts on RSP, in every state, STATUS field by field, with no
other effect; and the reserved indices. -/
def Obligations.RegisterFileAsRead : Prop :=
  ∀ s : State,
    (∃ st : Word, exec (.rd 0#8) s = .next { s with rsp := s.rsp ++ [st] } ∧
      (st.getLsbD 0 = true ↔ s.phase = .regionOpen) ∧
      (st.getLsbD 1 = true ↔ s.phase = .done) ∧
      st.getLsbD 2 = s.append ∧
      st.extractLsb' 3 5 = 0#5 ∧
      st.extractLsb' 8 8 = s.fault ∧
      st.extractLsb' 16 16 = 0#16) ∧
    exec (.rd 1#8) s = .next { s with rsp := s.rsp ++ [s.crc16.setWidth 32] } ∧
    exec (.rd 2#8) s = .next { s with rsp := s.rsp ++ [s.crc32Run] } ∧
    exec (.rd 3#8) s = .next { s with rsp := s.rsp ++ [s.crc32A] } ∧
    exec (.rd 4#8) s = .next { s with rsp := s.rsp ++ [s.crc32Out] } ∧
    exec (.rd 5#8) s = .next { s with rsp := s.rsp ++ [s.length] } ∧
    exec (.rd 6#8) s = .next
      { s with rsp := s.rsp ++ [BitVec.ofNat 32 ((s.base.toNat + s.idx * 200) % 2 ^ 32)] } ∧
    exec (.rd 7#8) s = .next { s with rsp := s.rsp ++ [BitVec.ofNat 32 s.fill.val] } ∧
    exec (.rd 8#8) s = .next { s with rsp := s.rsp ++ [s.pktCount] } ∧
    exec (.rd 9#8) s = .next { s with rsp := s.rsp ++ [s.finfo] } ∧
    (∀ reg : Byte, 9 < reg.toNat → s.fault = 0#8 →
      exec (.rd reg) s = .next { s with fault := 1#8, finfo := 0x30#32 })

/-- R152: the words of RD; a legal RD puts the register's value (`RegisterFileAsRead` says which) on RSP, in
every phase and in the faulted state, and changes nothing else; RD of a reserved index, and RD words with a
bit set in a must-be-zero field, answer nothing. -/
def Obligations.RdFollowsItsRule : Prop :=
  (∀ reg : Byte, reg.toNat ≤ 9 → decode (0x30#8 ++ reg.setWidth 32) = .ok (.rd reg)) ∧
  (∀ operand : Word, (operand.extractLsb' 8 24 ≠ 0#24 ∨ 9 < (operand.extractLsb' 0 8).toNat) →
    IllegalWord 0x30#8 operand) ∧
  ∀ (s : State) (reg : Byte),
    (reg.toNat ≤ 9 → ∃ v : Word, readRegister s reg = some v ∧
      exec (.rd reg) s = .next { s with rsp := s.rsp ++ [v] }) ∧
    (9 < reg.toNat → s.fault = 0#8 →
      exec (.rd reg) s = .next { s with fault := 1#8, finfo := 0x30#32 }) ∧
    (9 < reg.toNat → s.fault ≠ 0#8 → exec (.rd reg) s = .next s)

/-- R62: reading the same register twice, with nothing between, answers the same value and changes nothing
else. -/
def Obligations.RdTwiceAnswersTheSame : Prop :=
  ∀ (s : State) (reg : Byte), reg.toNat ≤ 9 → ∃ v : Word, ∃ t,
    exec (.rd reg) s = .next t ∧ t = { s with rsp := s.rsp ++ [v] } ∧
    exec (.rd reg) t = .next { s with rsp := s.rsp ++ [v, v] }

/-! ### Frames: what a command leaves unchanged -/

/-- The commands that store nothing in BUF leave every byte of BUF, every counter and TX unchanged, and each
of them changes only the elements its rule names. -/
def Obligations.NonStoringCommandsFrame : Prop :=
  ∀ (i : Instr) (s t : State), exec i s = .next t →
    ((i = .nop ∨ (∃ v, i = .chk v) ∨ (∃ b, i = .rgn b) ∨ (∃ a, i = .fin a) ∨ (∃ r, i = .rd r)) →
      (∀ a, t.buf.read a = s.buf.read a) ∧ t.length = s.length ∧ t.pktCount = s.pktCount ∧
      t.tx = s.tx ∧ t.inputs = s.inputs) ∧
    (i = .nop → t = s) ∧
    ((∃ v, i = .chk v) → t = { s with fault := t.fault, finfo := t.finfo }) ∧
    ((∃ r, i = .rd r) → t = { s with rsp := t.rsp, fault := t.fault, finfo := t.finfo }) ∧
    ((∃ b, i = .rgn b) →
      t = { s with base := t.base, idx := t.idx, fill := t.fill, crc16 := t.crc16, phase := t.phase,
                   fault := t.fault, finfo := t.finfo }) ∧
    ((∃ a, i = .fin a) →
      t = { s with crc32Run := t.crc32Run, crc32A := t.crc32A, crc32Out := t.crc32Out,
                   append := t.append, phase := t.phase, fault := t.fault, finfo := t.finfo })

/-- DAT stores to BUF at index FILL and nowhere else; when it or END emits, every byte of BUF reads 0 after;
and both leave the region's base, the results of FIN, RSP and the port unchanged. -/
def Obligations.StoringCommandsFrame : Prop :=
  ∀ (i : Instr) (s t : State), exec i s = .next t → s.buf.wf = true →
    (i = .endRgn ∨ ∃ v, i = .dat v) →
    (t.tx = s.tx → i = .endRgn → ∀ a, t.buf.read a = s.buf.read a) ∧
    (t.tx = s.tx → (∃ v, i = .dat v) → ∀ a, a ≠ s.fill.val → t.buf.read a = s.buf.read a) ∧
    (t.tx ≠ s.tx → ∀ a, t.buf.read a = 0x00#8) ∧
    t.base = s.base ∧ t.crc32A = s.crc32A ∧ t.crc32Out = s.crc32Out ∧ t.append = s.append ∧
    t.rsp = s.rsp ∧ t.inputs = s.inputs ∧
    (i = .endRgn → t.crc32Run = s.crc32Run) ∧ ((∃ v, i = .dat v) → t.phase = s.phase)

/-- R20 to R25, R29, R31: which commands may change which register. -/
def Obligations.RegistersChangeOnlyByTheirWriters : Prop :=
  ∀ (i : Instr) (s t : State), exec i s = .next t → i ≠ .rst →
    (t.crc16 ≠ s.crc16 → (∃ b, i = .rgn b) ∨ (∃ v, i = .dat v) ∨ i = .endRgn) ∧
    (t.crc32Run ≠ s.crc32Run → (∃ v, i = .dat v) ∨ i = .fin true) ∧
    (t.crc32A ≠ s.crc32A → ∃ a, i = .fin a) ∧
    (t.crc32Out ≠ s.crc32Out → ∃ a, i = .fin a) ∧
    (t.append ≠ s.append → ∃ a, i = .fin a) ∧
    (t.base ≠ s.base → ∃ b, i = .rgn b) ∧
    (t.fill ≠ s.fill → (∃ b, i = .rgn b) ∨ (∃ v, i = .dat v) ∨ i = .endRgn) ∧
    (t.idx ≠ s.idx → (∃ b, i = .rgn b) ∨ t.tx ≠ s.tx) ∧
    (t.length ≠ s.length → t.tx ≠ s.tx) ∧
    (t.pktCount ≠ s.pktCount → t.tx ≠ s.tx)

/-! ### Faults -/

/-- R170: a command that raises a fault has no other effect. -/
def Obligations.FaultsArePrecise : Prop :=
  ∀ s t : State, step s = .next t → t.fault ≠ s.fault → t.fault ≠ 0#8 →
    t = { s with inputs := s.inputs.tail, fault := t.fault, finfo := t.finfo }

/-- R167, R82: a command out of its phase raises F_SEQ with its opcode byte, and nothing else does. -/
def Obligations.OutOfPhaseRaisesSeq : Prop :=
  (∀ (i : Instr) (p : Phase) (s : State), phaseNeeded i = some p → s.phase ≠ p → s.fault = 0#8 →
    exec i s = .next { s with fault := 2#8, finfo := i.opcode.setWidth 32 }) ∧
  (∀ (i : Instr) (s t : State), exec i s = .next t → s.fault = 0#8 → t.fault = 2#8 →
    ∃ p, phaseNeeded i = some p ∧ s.phase ≠ p)

/-- R165: the table of faults. A step that raises one met a command word, and the fault is that of one row:
its cause held, and FINFO has what the row records. -/
def Obligations.FaultTableIsExhaustive : Prop :=
  ∀ s t : State, step s = .next t → s.fault = 0#8 → t.fault ≠ 0#8 →
    ∃ w : CmdWord, s.inputs.head? = some (.command w) ∧
      ((t.fault = 1#8 ∧ ¬ LegalWord w ∧ t.finfo = (w.extractLsb' 32 8).setWidth 32) ∨
       (t.fault = 2#8 ∧ t.finfo = (w.extractLsb' 32 8).setWidth 32 ∧
          ∃ i p, decode w = .ok i ∧ phaseNeeded i = some p ∧ s.phase ≠ p) ∨
       (t.fault = 3#8 ∧ decode w = .ok .endRgn ∧ s.fill.val % 8 ≠ 0 ∧
          t.finfo = BitVec.ofNat 32 s.fill.val) ∨
       (t.fault = 4#8 ∧ 2 ^ 32 ≤ s.base.toNat + s.idx * 200 ∧ t.finfo = BitVec.ofNat 32 s.idx ∧
          ((decode w = .ok .endRgn ∧ s.fill.val ≠ 0) ∨
            ((∃ v, decode w = .ok (.dat v)) ∧ s.fill.val = 199))) ∨
       (t.fault = 5#8 ∧ t.finfo = s.length ∧
          ((decode w = .ok .endRgn ∧ s.fill.val ≠ 0 ∧ 2 ^ 32 ≤ s.length.toNat + s.fill.val) ∨
            ((∃ v, decode w = .ok (.dat v)) ∧ s.fill.val = 199 ∧ 2 ^ 32 ≤ s.length.toNat + 200))) ∨
       (t.fault = 6#8 ∧ decode w = .ok (.chk t.finfo) ∧ t.finfo ≠ s.crc32Out))

/-- R84, R173: while faulted a legal RST resets, a legal RD reads, and every other word is ignored. -/
def Obligations.FaultedStateExecutesRstAndRdOnly : Prop :=
  ∀ (s : State) (w : CmdWord) (rest : List HostInput), s.fault ≠ 0#8 →
    s.inputs = .command w :: rest →
    (decode w = .ok .rst → ∃ t, step s = .next t ∧ ResetValues t ∧ t.tx = s.tx ∧ t.rsp = s.rsp) ∧
    (∀ reg, decode w = .ok (.rd reg) → ∃ v, readRegister s reg = some v ∧
      step s = .next { s with inputs := rest, rsp := s.rsp ++ [v] }) ∧
    ((decode w ≠ .ok .rst ∧ ∀ reg, decode w ≠ .ok (.rd reg)) →
      step s = .next { s with inputs := rest })

/-- R176, R177: a step from a faulted state keeps FAULT and FINFO, or it is a reset (the hardware's, or a
legal RST). -/
def Obligations.FirstFaultIsKeptUntilReset : Prop :=
  ∀ s t : State, step s = .next t → s.fault ≠ 0#8 →
    (t.fault = s.fault ∧ t.finfo = s.finfo) ∨
    (ResetValues t ∧ (s.inputs.head? = some .reset ∨ s.inputs.head? = some (.command 0x0100000000#40)))

/-- R174: the order of the checks; each case faults with its own code although every later check may fail
too. -/
def Obligations.ChecksAreMadeInOrder : Prop :=
  ∀ s : State,
    (∀ t, s.fault ≠ 0#8 → step s = .next t → t.fault = s.fault ∨ t.fault = 0#8) ∧
    (∀ (w : CmdWord) (rest : List HostInput) (e : DecodeError), s.fault = 0#8 →
      s.inputs = .command w :: rest → decode w = .error e →
      ∃ t, step s = .next t ∧ t.fault = 1#8) ∧
    (∀ (i : Instr) (p : Phase), s.fault = 0#8 → phaseNeeded i = some p → s.phase ≠ p →
      ∃ t, exec i s = .next t ∧ t.fault = 2#8) ∧
    (s.fault = 0#8 → s.phase = .regionOpen → s.fill.val % 8 ≠ 0 →
      ∃ t, exec .endRgn s = .next t ∧ t.fault = 3#8) ∧
    (∀ i : Instr, (i = .endRgn ∧ s.fill.val ≠ 0 ∧ s.fill.val % 8 = 0) ∨
        ((∃ v, i = .dat v) ∧ s.fill.val = 199) →
      s.fault = 0#8 → s.phase = .regionOpen →
      (2 ^ 32 ≤ s.base.toNat + s.idx * 200 → ∃ t, exec i s = .next t ∧ t.fault = 4#8) ∧
      (s.base.toNat + s.idx * 200 < 2 ^ 32 →
        2 ^ 32 ≤ s.length.toNat + (if i = .endRgn then s.fill.val else 200) →
        ∃ t, exec i s = .next t ∧ t.fault = 5#8)) ∧
    (∀ value : Word, s.fault = 0#8 → s.phase = .done → value ≠ s.crc32Out →
      ∃ t, exec (.chk value) s = .next t ∧ t.fault = 6#8)

/-! ### Whole-machine rules -/

/-- R28: the transitions of PHASE. -/
def Obligations.PhaseTransitions : Prop :=
  ∀ (i : Instr) (s t : State), exec i s = .next t → t.phase ≠ s.phase →
    (i = .rst ∧ t.phase = .idle) ∨
    ((∃ b, i = .rgn b) ∧ s.phase = .idle ∧ t.phase = .regionOpen) ∨
    (i = .endRgn ∧ s.phase = .regionOpen ∧ t.phase = .idle) ∨
    ((∃ a, i = .fin a) ∧ s.phase = .idle ∧ t.phase = .done)

/-- R118: in phase DONE no command but RST changes a result, and RGN, DAT, END and FIN raise F_SEQ. -/
def Obligations.DoneFreezesResults : Prop :=
  ∀ (i : Instr) (s t : State), exec i s = .next t → s.phase = .done → i ≠ .rst →
    t.crc32A = s.crc32A ∧ t.crc32Out = s.crc32Out ∧ t.crc32Run = s.crc32Run ∧ t.length = s.length ∧
    t.pktCount = s.pktCount ∧ t.append = s.append ∧ t.tx = s.tx ∧ t.phase = .done ∧
    (s.fault = 0#8 → (phaseNeeded i = some .idle ∨ phaseNeeded i = some .regionOpen) → t.fault = 2#8)

/-- R24, R31, R36: TX only grows, by at most one frame a step, and LENGTH and PKT_COUNT move with it unless
the block is reset. -/
def Obligations.TxAndTotalsMoveTogether : Prop :=
  ∀ s t : State, step s = .next t →
    (t.tx = s.tx ∧ ((t.length = s.length ∧ t.pktCount = s.pktCount) ∨ ResetValues t)) ∨
    (∃ f, t.tx = s.tx ++ [f] ∧ t.length.toNat = s.length.toNat + frameLength f ∧
      t.pktCount = s.pktCount + 1#32)

/-- R37, R61: a step that takes a legal RD puts one word on RSP, the value of the register it names, and every
other step puts none. -/
def Obligations.RspGrowsOnlyByRd : Prop :=
  ∀ s t : State, step s = .next t →
    (∃ (reg : Byte) (v : Word), reg.toNat ≤ 9 ∧
      s.inputs.head? = some (.command (encode (.rd reg))) ∧ readRegister s reg = some v ∧
      t.rsp = s.rsp ++ [v]) ∨
    (t.rsp = s.rsp ∧ ∀ reg : Byte, reg.toNat ≤ 9 →
      s.inputs.head? ≠ some (.command (encode (.rd reg))))

/-- R76: the TX port's byte stream is the frames in order, each in offset order. -/
def Obligations.TxStreamIsFramesInOffsetOrder : Prop :=
  ∀ (s : State) (j i : Nat), (∀ f ∈ s.tx, f.length = 216) → i < 216 →
    (txStream s)[j * 216 + i]? = (s.tx[j]?).bind (fun f => f[i]?)

/-! ### The frame -/

/-- R70, R72, R73, R74: every field of a frame at its offset. -/
def Obligations.FrameFieldsAtTheirOffsets : Prop :=
  ∀ (address : Word) (k : Nat) (crc : Half) (data : List Byte), data.length = k → k ≤ 200 →
    ∀ f : Frame, f = encodeFrame address k crc data →
      f.length = 216 ∧
      frameByte f 0 = 0x2A#8 ∧ frameByte f 1 = 0x75#8 ∧
      frameByte f 2 = 0x00#8 ∧ frameByte f 3 = 0x00#8 ∧
      frameByte f 4 = address.extractLsb' 0 8 ∧ frameByte f 5 = address.extractLsb' 8 8 ∧
      frameByte f 6 = address.extractLsb' 16 8 ∧ frameByte f 7 = address.extractLsb' 24 8 ∧
      (frameByte f 8).toNat = k ∧ frameByte f 9 = 0x00#8 ∧
      frameByte f 10 = crc.extractLsb' 0 8 ∧ frameByte f 11 = crc.extractLsb' 8 8 ∧
      (f.drop 12).take k = data ∧
      (∀ i, 12 + k ≤ i → i < 212 → frameByte f i = 0x00#8) ∧
      frameByte f 212 = 0x0A#8 ∧
      frameByte f 213 = 0x00#8 ∧ frameByte f 214 = 0x00#8 ∧ frameByte f 215 = 0x00#8

/-- X1, X4: under every byte order and every pad value a frame has 216 bytes, and the convention touches
nothing but the address, the CRC and the pad bytes. -/
def Obligations.FrameUnderEveryConvention : Prop :=
  ∀ (order : ByteOrder) (pad : Byte) (address : Word) (k : Nat) (crc : Half) (data : List Byte),
    data.length = k → k ≤ 200 →
    (encodeFrameWith order pad address k crc data).length = 216 ∧
    ((encodeFrameWith order pad address k crc data).drop 4).take 4 =
      (if order = .little then le32 address else (le32 address).reverse) ∧
    ((encodeFrameWith order pad address k crc data).drop 10).take 2 =
      (if order = .little then le16 crc else (le16 crc).reverse) ∧
    (∀ i ∈ [2, 3, 9, 213, 214, 215], frameByte (encodeFrameWith order pad address k crc data) i = pad) ∧
    (∀ i, (i = 0 ∨ i = 1 ∨ i = 8 ∨ (12 ≤ i ∧ i ≤ 212)) →
      frameByte (encodeFrameWith order pad address k crc data) i =
        frameByte (encodeFrame address k crc data) i)

/-- R77, which the spec marks as derived ("A frame the block emits always satisfies"): from a state
that meets the invariant, every frame a step emits passes the receiver's check. -/
def Obligations.EmittedFramesAreWellFormed : Prop :=
  ∀ (s t : State) (f : Frame), Inv s → step s = .next t → t.tx = s.tx ++ [f] → FrameOk f

/-! ### The two CRCs -/

/-- R100, R101, R102: the step of R100's worked example and the values R102 gives. -/
def Obligations.Crc16GivesStatedValues : Prop :=
  crc16Step 0xFFFF#16 0x31#8 = 0xC782#16 ∧
  crc16 [] = 0xFFFF#16 ∧ crc16 [0x00#8] = 0xE1F0#16 ∧ crc16 [0xFF#8] = 0xFF00#16 ∧
  crc16 [0x31#8, 0x32#8, 0x33#8, 0x34#8, 0x35#8, 0x36#8, 0x37#8, 0x38#8, 0x39#8] = 0x29B1#16 ∧
  crc16 (List.replicate 200 0x00#8) = 0x7A8F#16

/-- R110, R111, R112: the check value the source gives for sixteen bytes. -/
def Obligations.Crc32GivesSourceCheckValue : Prop :=
  crc32 [0x31#8, 0x32#8, 0x33#8, 0x34#8, 0x35#8, 0x36#8, 0x37#8, 0x38#8, 0x39#8, 0x61#8, 0x62#8, 0x63#8,
    0x64#8, 0x65#8, 0x66#8, 0x30#8] = 0xA19A6E15#32

/-- R105, which the spec marks as a computed lemma ("equals one byte step of the bitwise CRC with polynomial
0x1021"): the five statements of R100 are one byte of the bitwise CRC with polynomial 0x1021, for every
register value and every byte, and so for every run of bytes. -/
def Obligations.Crc16IsBitwiseCrc : Prop :=
  (∀ (c : Half) (v : Byte), crc16Step c v = crc16BitStep c v) ∧
  ∀ data : List Byte, crc16 data = data.foldl crc16BitStep 0xFFFF#16

/-- R115, N17: feeding the digest's own bytes most significant first would give 0 for every image, which is
why the order matters. -/
def Obligations.Crc32OfOwnBytesReversedIsZero : Prop :=
  ∀ c : Word, crc32Feed c (le32 c).reverse = 0#32

/-! ### The invariant -/

/-- R38, which the spec marks as derived: the invariant holds at reset. -/
def Obligations.InvariantHoldsAtReset : Prop := Inv State.reset

/-- R38, which the spec marks as derived ("These invariants hold after reset and after every command, faulting
or not"): every step keeps the invariant, whatever the host presents. -/
def Obligations.StepKeepsInvariant : Prop :=
  ∀ s t : State, Inv s → step s = .next t → Inv t

/-- The model's own form of BUF (log entry 9): the canonical form of its listing is kept by every
step, in every state. -/
def Obligations.StepKeepsBufferCanonical : Prop :=
  ∀ s t : State, s.buf.wf = true → step s = .next t → t.buf.wf = true

/-- R137, which the spec marks as derived: "IDX never exceeds 21,474,837". -/
def Obligations.IdxStaysBounded : Prop :=
  ∀ s t : State, IdxOk s → step s = .next t → IdxOk t ∧ t.idx ≤ 21474837

/-- R38 item 5, which the spec marks as derived: the image is the bytes of the DAT commands executed
without fault since reset, in order. -/
def Obligations.ImageIsTheDatBytes : Prop :=
  ∀ (i : Instr) (s t : State), Inv s → exec i s = .next t →
    (i = .rst → imageBytes t = []) ∧
    (∀ v, i = .dat v → t.fault = 0#8 → imageBytes t = imageBytes s ++ [v]) ∧
    (i ≠ .rst → (∀ v, i = .dat v → t.fault ≠ 0#8) → imageBytes t = imageBytes s)

/-- R114, R116, R204: what FIN captures is the CRC32 of the image's bytes and their number. -/
def Obligations.FinCapturesImageCrc : Prop :=
  ∀ (s : State) (append : Bool), Inv s → s.fault = 0#8 → s.phase = .idle →
    ∃ t, exec (.fin append) s = .next t ∧ ProducedImage t ∧
      emittedBytes t = imageBytes s ∧
      t.crc32A = crc32 (emittedBytes t) ∧
      t.crc32Out = (if append then crc32 (emittedBytes t ++ le32 t.crc32A) else t.crc32A) ∧
      t.length.toNat = (emittedBytes t).length

/-- R119, which the spec marks as derived: the empty image. -/
def Obligations.EmptyImageIsAccepted : Prop :=
  (∃ t, exec (.fin false) State.reset = .next t ∧ ProducedImage t ∧ t.crc32A = 0xFFFFFFFF#32 ∧
    t.crc32Out = 0xFFFFFFFF#32 ∧ t.length = 0#32) ∧
  (∃ t, exec (.fin true) State.reset = .next t ∧ ProducedImage t ∧ t.crc32A = 0xFFFFFFFF#32 ∧
    t.crc32Out = 0x00000000#32 ∧ t.length = 0#32)

/-- R104, R113, R136: the address enters neither CRC: two states that differ in BASE only go on with the
same CRCs, the same payloads and the same totals while neither faults. -/
def Obligations.AddressEntersNoCrc : Prop :=
  ∀ (i : Instr) (s t u : State) (b : Word), exec i s = .next t → exec i { s with base := b } = .next u →
    t.fault = 0#8 → u.fault = 0#8 →
    t.crc16 = u.crc16 ∧ t.crc32Run = u.crc32Run ∧ t.crc32A = u.crc32A ∧ t.crc32Out = u.crc32Out ∧
    t.length = u.length ∧ t.pktCount = u.pktCount ∧
    t.tx.map framePayload = u.tx.map framePayload ∧ t.tx.map frameCrc = u.tx.map frameCrc

/-! ### Regions and images -/

/-- R140, whose form in the block the spec marks as derived: a region of exactly `N * 200` bytes
packetizes into `N` frames of 200 bytes at `base`, `base + 200`, and so on, and its payloads are its bytes. -/
def Obligations.WholeChunkRegionPacketizes : Prop :=
  ∀ (s : State) (base : Word) (data : List Byte) (n : Nat), s.buf.wf = true →
    s.fault = 0#8 → s.phase = .idle →
    data.length = n * 200 → base.toNat + data.length ≤ 2 ^ 32 → s.length.toNat + data.length < 2 ^ 32 →
    ∃ (t : State) (fs : List Frame), execAll (asmRegion base data) s = .next t ∧
      t.fault = 0#8 ∧ t.phase = .idle ∧ t.tx = s.tx ++ fs ∧ fs.length = n ∧
      (∀ j, j < n → frameLength (fs.getD j []) = 200 ∧
        frameAddress (fs.getD j []) = BitVec.ofNat 32 (base.toNat + j * 200)) ∧
      fs.flatMap framePayload = data

/-- R141, whose form in the block the spec marks as derived: a region of `N * 200 + k` bytes
packetizes into `N + 1` frames, the last with `data_length = k` and `200 - k` zero bytes at the end of its
data field. -/
def Obligations.TailRegionPacketizes : Prop :=
  ∀ (s : State) (base : Word) (data : List Byte) (n k : Nat), s.buf.wf = true →
    s.fault = 0#8 → s.phase = .idle →
    data.length = n * 200 + k → 0 < k → k < 200 → k % 8 = 0 →
    base.toNat + data.length ≤ 2 ^ 32 → s.length.toNat + data.length < 2 ^ 32 →
    ∃ (t : State) (fs : List Frame), execAll (asmRegion base data) s = .next t ∧
      t.fault = 0#8 ∧ t.phase = .idle ∧ t.tx = s.tx ++ fs ∧ fs.length = n + 1 ∧
      (∀ j, j < n → frameLength (fs.getD j []) = 200) ∧
      frameLength (fs.getD n []) = k ∧
      (∀ j, j ≤ n → frameAddress (fs.getD j []) = BitVec.ofNat 32 (base.toNat + j * 200)) ∧
      ((fs.getD n []).drop (12 + k)).take (200 - k) = List.replicate (200 - k) 0x00#8 ∧
      fs.flatMap framePayload = data

/-- D13, D14, R103, R113: the streaming block and the batch packetizer agree: RGN, the bytes one by one and
END emit exactly the batch frames of the region, and leave the digest and the totals of the batch. -/
def Obligations.StreamingRefinesBatch : Prop :=
  ∀ (s : State) (base : Word) (data : List Byte), s.buf.wf = true → s.fault = 0#8 → s.phase = .idle →
    data.length % 8 = 0 → base.toNat + data.length ≤ 2 ^ 32 → s.length.toNat + data.length < 2 ^ 32 →
    ∃ t, execAll (asmRegion base data) s = .next t ∧ t.fault = 0#8 ∧ t.phase = .idle ∧
      t.tx = s.tx ++ packetize base data ∧
      t.length.toNat = s.length.toNat + data.length ∧
      t.crc32Run = crc32Feed s.crc32Run data

/-- R204 and R199: from any state RST, any regions of legal length below 2^32, in the order given, and FIN
leave the frames, the length and the CRC32 of their bytes in that order. The regions need not be in ascending
order nor disjoint, which the block does not check: only where they are (R11) is this the image the source
defines. -/
def Obligations.LegalImageIsProduced : Prop :=
  ∀ (s : State) (regions : List (Word × List Byte)) (append : Bool),
    (∀ r ∈ regions, r.2.length % 8 = 0 ∧ r.1.toNat + r.2.length ≤ 2 ^ 32) →
    (regions.map fun r => r.2.length).sum < 2 ^ 32 →
    ∃ t, execAll (.rst :: (regions.flatMap fun r => asmRegion r.1 r.2) ++ [.fin append]) s = .next t ∧
      ProducedImage t ∧
      t.tx = s.tx ++ (regions.flatMap fun r => packetize r.1 r.2) ∧
      t.length.toNat = (regions.map fun r => r.2.length).sum ∧
      t.crc32A = crc32 (regions.flatMap fun r => r.2) ∧
      t.crc32Out = if append then crc32 ((regions.flatMap fun r => r.2) ++ le32 t.crc32A) else t.crc32A

/-! ### The assembler -/

/-- R86: an assembled operand command is `opcode << 32 | operand`, and is refused exactly if R82 makes the
operand illegal, or, which is the model's choice (log entry 20), it does not fit in 32 bits. -/
def Obligations.AssembledWordIsOpcodeAndOperand : Prop :=
  ∀ (opcode : Byte) (operand : Nat),
    (∀ w, asmWord opcode operand = some w → w.toNat = opcode.toNat * 2 ^ 32 + operand) ∧
    (asmWord opcode operand = none ↔
      2 ^ 32 ≤ operand ∨ ∃ e, decode (BitVec.ofNat 40 (opcode.toNat * 2 ^ 32 + operand)) = .error e)

/-- R86, R87: whatever text the assembler accepts, every word it gives is a command. -/
def Obligations.AssemblerGivesLegalWords : Prop :=
  ∀ (text : List Char) (ws : List CmdWord), assemble text = some ws →
    ∀ w ∈ ws, ∃ i, decode w = .ok i

/-- R87: the expansions of BYTES and REGION, and the lines of text that stand for them: for every base, every
non-empty list of bytes, every spelling of these numbers, and with or without blanks and a comment after them,
the line assembles to the encodings of the expansion (how it is read is log entry 20's). The spec's example of
REGION, and one of ASCII. -/
def Obligations.PseudoInstructionsExpand : Prop :=
  (∀ data : List Byte, asmBytes data = data.map Instr.dat) ∧
  (∀ (base : Word) (data : List Byte),
    asmRegion base data = [Instr.rgn base] ++ asmBytes data ++ [Instr.endRgn]) ∧
  (∀ (data : List Byte) (numbers : List (List Char)) (rest : List Char), data ≠ [] →
    numbers.map asmNumber = data.map (fun v => some v.toNat) → LineEnd rest →
    assemble ("BYTES".toList ++ numbers.flatMap (' ' :: ·) ++ rest) =
      some ((asmBytes data).map encode) ∧
    ∀ (base : Word) (number : List Char), asmNumber number = some base.toNat →
      assemble ("REGION ".toList ++ number ++ ",".toList ++ numbers.flatMap (' ' :: ·) ++ rest) =
        some ((asmRegion base data).map encode)) ∧
  assemble "REGION 0x100, 0x01 0x02".toList =
    some [0x1000000100#40, 0x1100000001#40, 0x1100000002#40, 0x1200000000#40] ∧
  assemble "ASCII \"12\"".toList = some [0x1100000031#40, 0x1100000032#40]

/-- R87: the ASCII pseudo-instruction, for every text that a line can hold between its quotes, with or without
blanks and a comment after it: one DAT for each character, in order, with its code (how the line is read is log
entry 20's). -/
def Obligations.AsciiExpandsToItsCharacters : Prop :=
  ∀ text rest : List Char, (∀ c ∈ text, c.toNat < 128 ∧ c.toNat ≠ 34 ∧ c ≠ '\n') → LineEnd rest →
    assemble ("ASCII \"".toList ++ text ++ "\"".toList ++ rest) =
      some (text.map fun c => encode (.dat (BitVec.ofNat 8 c.toNat)))

/-- R86: a line of a command, with or without blanks and a comment after it (which characters are blanks is log
entry 20's, and so is that a line with an operand too many is refused): the three mnemonics that take no
operand assemble to their words and refuse one; each of the five others, with any number, assembles to the word
of its opcode and that number, or is refused with it; RD takes each register name of R33 in place of its
index. -/
def Obligations.CommandLinesAssembleToTheirWords : Prop :=
  ∀ rest : List Char, LineEnd rest →
    assemble ("NOP".toList ++ rest) = some [0x0000000000#40] ∧
    assemble ("RST".toList ++ rest) = some [0x0100000000#40] ∧
    assemble ("END".toList ++ rest) = some [0x1200000000#40] ∧
    (∀ (number : List Char) (n : Nat), asmNumber number = some n →
      assemble ("RGN ".toList ++ number ++ rest) = (asmWord 0x10#8 n).map (fun w => [w]) ∧
      assemble ("DAT ".toList ++ number ++ rest) = (asmWord 0x11#8 n).map (fun w => [w]) ∧
      assemble ("FIN ".toList ++ number ++ rest) = (asmWord 0x20#8 n).map (fun w => [w]) ∧
      assemble ("CHK ".toList ++ number ++ rest) = (asmWord 0x21#8 n).map (fun w => [w]) ∧
      assemble ("RD ".toList ++ number ++ rest) = (asmWord 0x30#8 n).map (fun w => [w]) ∧
      assemble ("NOP ".toList ++ number ++ rest) = none ∧
      assemble ("RST ".toList ++ number ++ rest) = none ∧
      assemble ("END ".toList ++ number ++ rest) = none) ∧
    (∀ p ∈ [("STATUS", 0x3000000000#40), ("CRC16", 0x3000000001#40), ("CRC32_RUN", 0x3000000002#40),
        ("CRC32_A", 0x3000000003#40), ("CRC32_OUT", 0x3000000004#40), ("LENGTH", 0x3000000005#40),
        ("ADDR", 0x3000000006#40), ("FILL", 0x3000000007#40), ("PKT_COUNT", 0x3000000008#40),
        ("FINFO", 0x3000000009#40)],
      assemble ("RD ".toList ++ p.1.toList ++ rest) = some [p.2])

/-- R86: an operand is a decimal or a `0x` hexadecimal number: the digits of every number, in either base, with
any zeros before them and each hexadecimal letter in either case, are read as that number. The spec's programs
write upper-case letters and zeros after `0x`; lower-case letters and zeros before a decimal number are the
model's choice (log entry 20). -/
def Obligations.NumbersAreReadInBothBases : Prop :=
  ∀ n zeros : Nat,
    asmNumber (List.replicate zeros '0' ++ Nat.toDigits 10 n) = some n ∧
    ∀ digits : List Char, digits.map Char.toLower = Nat.toDigits 16 n →
      asmNumber ("0x".toList ++ List.replicate zeros '0' ++ digits) = some n

/-- R86's "One command per line": a text assembles to the words of its first line and then those of the rest.
That a line may be empty, and that a refused line refuses the whole text, are the model's choices (log entry
20). -/
def Obligations.LinesAssembleOneAfterAnother : Prop :=
  ∀ line text : List Char, '\n' ∉ line →
    assemble (line ++ '\n' :: text) =
      (assemble line).bind fun a => (assemble text).map fun b => a ++ b
end

