-- ==== Sys2Proof/Laws/Assembler.lean ====
section
/-! SUPPORT. The assembler's readers of characters: what a number holds, how a run of plain characters is one
token, and how a text falls into lines. -/

namespace Sys2Proof.Machine

open Sys2Proof.Safety (LineEnd)

/-- A character that is part of a token: no blank, comma, comment sign or line end. -/
def AsmPlain (c : Char) : Prop := asmBlank c = false ∧ c ≠ ',' ∧ c ≠ ';' ∧ c ≠ '\n'

/-! ### Numbers -/

theorem asmDigit_plain {base d : Nat} {c : Char} (h : asmDigit base c = some d) :
    AsmPlain c := by
  have no : ∀ c' : Char, asmDigit base c' = none → c ≠ c' := by
    rintro c' hn rfl
    rw [hn] at h; cases h
  have none_of : ∀ c' : Char, (c'.toNat < 48 ∨ 102 < c'.toNat) → asmDigit base c' = none := by
    intro c' hc
    rw [asmDigit, if_neg]
    rw [if_neg (by omega), if_neg (by omega), if_neg (by omega)]
    exact Nat.lt_irrefl _
  refine ⟨?_, no ',' (none_of _ (by decide)), ?_, no '\n' (none_of _ (by decide))⟩
  · simp [asmBlank, no ' ' (none_of _ (by decide)), no '\t' (none_of _ (by decide)),
      no '\r' (none_of _ (by decide))]
  · refine no ';' ?_
    rw [asmDigit, if_neg]
    rw [if_neg (by decide), if_neg (by decide), if_neg (by decide)]
    exact Nat.lt_irrefl _

theorem asmDigits_plain {base : Nat} {digits : List Char} :
    ∀ {n m : Nat}, asmDigits base n digits = some m → ∀ c ∈ digits, AsmPlain c := by
  induction digits with
  | nil => intro n m _ c hc; cases hc
  | cons d ds ih =>
    intro n m h c hc
    rw [asmDigits] at h
    split at h
    · next hd =>
      rcases List.mem_cons.1 hc with rfl | hc
      · exact asmDigit_plain hd
      · exact ih h c hc
    · cases h

theorem asmNumber_plain {number : List Char} {n : Nat} (h : asmNumber number = some n) :
    ∀ c ∈ number, AsmPlain c := by
  unfold asmNumber at h
  split at h
  · cases h
  · cases h
  · next ds _ =>
    intro c hc
    rcases List.mem_cons.1 hc with rfl | hc
    · unfold AsmPlain; decide
    · rcases List.mem_cons.1 hc with rfl | hc
      · unfold AsmPlain; decide
      · exact asmDigits_plain h c hc
  · exact asmDigits_plain h

theorem asmNumber_ne_nil {number : List Char} {n : Nat} (h : asmNumber number = some n) : number ≠ [] := by
  rintro rfl; cases h

/-! ### Tokens -/

/-- Plain characters go to the token being read. -/
theorem asmTokens_plain {word : List Char} (h : ∀ c ∈ word, AsmPlain c) (token rest : List Char) :
    asmTokens token (word ++ rest) = asmTokens (word.reverse ++ token) rest := by
  induction word generalizing token with
  | nil => rfl
  | cons c cs ih =>
    obtain ⟨h1, h2, h3, -⟩ := h c (by simp)
    rw [List.cons_append, asmTokens, if_neg h3, if_neg (by simp [h1]), if_neg h2,
      ih fun d hd => h d (by simp [hd])]
    simp

/-- What may stand after the last token gives no token, and ends the one being read. -/
theorem asmTokens_lineEnd {rest : List Char} (h : LineEnd rest) (token : List Char) :
    asmTokens token rest = if token = [] then [] else [token.reverse] := by
  obtain ⟨blanks, comment, rfl, hb, hc⟩ := h
  induction blanks generalizing token with
  | nil =>
    rcases hc with rfl | ⟨c, rfl, -⟩
    · rw [List.append_nil, asmTokens]
    · rw [List.nil_append, asmTokens, if_pos rfl]
  | cons b bs ih =>
    have hb1 : asmBlank b = true := hb b (by simp)
    have hne : b ≠ ';' := by rintro rfl; revert hb1; decide
    rw [List.cons_append, asmTokens, if_neg hne, if_pos hb1, ih [] (fun d hd => hb d (by simp [hd])), if_pos rfl,
      List.append_nil]

theorem newline_not_mem_lineEnd {rest : List Char} (h : LineEnd rest) : '\n' ∉ rest := by
  obtain ⟨blanks, comment, rfl, hb, hc⟩ := h
  have h1 : '\n' ∉ blanks := fun h => absurd (hb _ h) (by decide)
  rcases hc with rfl | ⟨c, rfl, h⟩
  · simpa using h1
  · simp [h1, h]

/-- A token ends at a blank. -/
theorem asmTokens_blank {token rest : List Char} (ht : token ≠ []) :
    asmTokens token (' ' :: rest) = token.reverse :: asmTokens [] rest := by
  rw [asmTokens, if_neg (by decide), if_pos (by decide), if_neg ht, List.singleton_append]

/-- A token ends at a comma, which is the next token. -/
theorem asmTokens_comma {token rest : List Char} (ht : token ≠ []) :
    asmTokens token (',' :: rest) = token.reverse :: [','] :: asmTokens [] rest := by
  rw [asmTokens, if_neg (by decide), if_neg (by decide), if_pos rfl, if_neg ht, List.singleton_append]

/-- Words with a blank before each are the tokens. -/
theorem asmTokens_words {words : List (List Char)} (h : ∀ w ∈ words, w ≠ [] ∧ ∀ c ∈ w, AsmPlain c)
    {rest : List Char} (hr : LineEnd rest) {token : List Char} (ht : token ≠ []) :
    asmTokens token (words.flatMap (' ' :: ·) ++ rest) = token.reverse :: words := by
  induction words generalizing token with
  | nil => rw [List.flatMap_nil, List.nil_append, asmTokens_lineEnd hr, if_neg ht]
  | cons w ws ih =>
    obtain ⟨hw, hp⟩ := h w (by simp)
    rw [List.flatMap_cons, List.append_assoc, List.cons_append, asmTokens_blank ht, asmTokens_plain hp,
      List.append_nil, ih (fun v hv => h v (by simp [hv])) (by simpa using hw), List.reverse_reverse]

/-! ### Lines -/

theorem asmLines_single {line : List Char} (h : '\n' ∉ line) (acc : List Char) :
    asmLines acc line = [acc.reverse ++ line] := by
  induction line generalizing acc with
  | nil => simp [asmLines]
  | cons c cs ih =>
    rw [asmLines, if_neg (by rintro rfl; simp at h), ih (by intro hc; exact h (by simp [hc]))]
    simp

/-- The first line of a text, and the lines of the rest. -/
theorem asmLines_append {line : List Char} (h : '\n' ∉ line) (acc text : List Char) :
    asmLines acc (line ++ '\n' :: text) = (acc.reverse ++ line) :: asmLines [] text := by
  induction line generalizing acc with
  | nil => simp [asmLines]
  | cons c cs ih =>
    rw [List.cons_append, asmLines, if_neg (by rintro rfl; simp at h),
      ih (by intro hc; exact h (by simp [hc]))]
    simp

/-- A text of one line is that line. -/
theorem assemble_line {line : List Char} (h : '\n' ∉ line) : assemble line = asmLine line := by
  rw [assemble, asmLines_single h, List.reverse_nil, List.nil_append, asmAll, asmAll]
  cases asmLine line <;> simp

theorem asmAll_eq_some {α β γ : Type} {f : α → Option β} {g : γ → β} {xs : List α} {ys : List γ}
    (h : xs.map f = ys.map fun y => some (g y)) : asmAll f xs = some (ys.map g) := by
  induction xs generalizing ys with
  | nil => cases ys with
    | nil => rfl
    | cons y ys => cases h
  | cons x xs ih => cases ys with
    | nil => cases h
    | cons y ys =>
      injection h with h1 h2
      rw [asmAll, h1, ih h2]; rfl

end Sys2Proof.Machine
end

