-- ==== Sys2Proof/Laws/Decode.lean ====
section
/-! SUPPORT. The command word as an opcode followed by an operand. -/

namespace Sys2Proof

/-- A bit of the word, in its operand or in its opcode. -/
theorem getLsbD_word (op : Byte) (arg : Word) (i : Nat) :
    (op ++ arg : CmdWord).getLsbD i = if i < 32 then arg.getLsbD i else op.getLsbD (i - 32) :=
  BitVec.getLsbD_append (x := op) (y := arg) (i := i)

@[simp] theorem cmdOpcode_append (op : Byte) (arg : Word) : cmdOpcode (op ++ arg) = op := by
  refine BitVec.eq_of_getLsbD_eq fun i hi => ?_
  rw [cmdOpcode, BitVec.getLsbD_extractLsb', getLsbD_word]
  simp [hi]

@[simp] theorem cmdOperand_append (op : Byte) (arg : Word) : cmdOperand (op ++ arg) = arg := by
  refine BitVec.eq_of_getLsbD_eq fun i hi => ?_
  rw [cmdOperand, BitVec.getLsbD_extractLsb', getLsbD_word]
  simp [hi]

theorem opcode_append_operand (w : CmdWord) : cmdOpcode w ++ cmdOperand w = w := by
  refine BitVec.eq_of_getLsbD_eq fun i hi => ?_
  rw [getLsbD_word]
  simp only [cmdOpcode, cmdOperand, BitVec.getLsbD_extractLsb', Nat.zero_add]
  by_cases h : i < 32
  · simp [h]
  · have h1 : i - 32 < 8 := by omega
    have h2 : 32 + (i - 32) = i := by omega
    simp [h, h1, h2]

/-- Masking a word masks its opcode and its operand. -/
theorem word_and (op op' : Byte) (arg arg' : Word) :
    (op ++ arg : CmdWord) &&& (op' ++ arg' : CmdWord) = ((op &&& op') ++ (arg &&& arg') : CmdWord) := by
  refine BitVec.eq_of_getLsbD_eq fun i hi => ?_
  rw [BitVec.getLsbD_and, getLsbD_word, getLsbD_word, getLsbD_word]
  split <;> simp

/-- Two words are equal when both parts are. -/
theorem word_inj {op op' : Byte} {arg arg' : Word} :
    (op ++ arg : CmdWord) = (op' ++ arg' : CmdWord) ↔ op = op' ∧ arg = arg' := by
  constructor
  · intro h
    exact ⟨by rw [← cmdOpcode_append op arg, h, cmdOpcode_append],
      by rw [← cmdOperand_append op arg, h, cmdOperand_append]⟩
  · rintro ⟨rfl, rfl⟩; rfl

@[simp] theorem decode_append (op : Byte) (arg : Word) : decode (op ++ arg) = decodeFields op arg := by
  rw [decode, cmdOpcode_append, cmdOperand_append]

/-! ### The decoder, opcode by opcode -/

theorem decodeFields_nop (arg : Word) :
    decodeFields 0x00#8 arg = decodeBare 0x00#8 arg .nop := rfl

theorem decodeFields_rst (arg : Word) :
    decodeFields 0x01#8 arg = decodeBare 0x01#8 arg .rst := rfl

theorem decodeFields_rgn (arg : Word) : decodeFields 0x10#8 arg = .ok (.rgn arg) := rfl

theorem decodeFields_dat (arg : Word) :
    decodeFields 0x11#8 arg =
      if arg.extractLsb' 8 24 = 0#24 then .ok (.dat (arg.extractLsb' 0 8))
      else .error (.reservedBits 0x11#8) := rfl

theorem decodeFields_endRgn (arg : Word) :
    decodeFields 0x12#8 arg = decodeBare 0x12#8 arg .endRgn := rfl

theorem decodeFields_fin (arg : Word) :
    decodeFields 0x20#8 arg =
      if arg.extractLsb' 1 31 = 0#31 then .ok (.fin (arg.getLsbD 0))
      else .error (.reservedBits 0x20#8) := rfl

theorem decodeFields_chk (arg : Word) : decodeFields 0x21#8 arg = .ok (.chk arg) := rfl

theorem decodeFields_rd (arg : Word) :
    decodeFields 0x30#8 arg =
      if arg.extractLsb' 8 24 = 0#24 then
        if (arg.extractLsb' 0 8).toNat ≤ 9 then .ok (.rd (arg.extractLsb' 0 8))
        else .error (.reservedRegister (arg.extractLsb' 0 8))
      else .error (.reservedBits 0x30#8) := rfl

theorem decodeBare_zero (op : Byte) (i : Instr) : decodeBare op 0#32 i = .ok i := if_pos rfl

theorem decodeBare_nonzero {op : Byte} {arg : Word} (i : Instr) (h : arg ≠ 0#32) :
    decodeBare op arg i = .error (.reservedBits op) := if_neg h

/-- A zero-extended byte: its low byte is the byte and the rest is zero. -/
theorem byte_in_word (v : Byte) :
    (v.setWidth 32).extractLsb' 8 24 = 0#24 ∧ (v.setWidth 32).extractLsb' 0 8 = v := by
  revert v; decide

/-- A word whose bits 31:8 are zero is its low byte, zero-extended. -/
theorem word_of_byte {arg : Word} (h : arg.extractLsb' 8 24 = 0#24) :
    arg = (arg.extractLsb' 0 8).setWidth 32 := by
  refine BitVec.eq_of_toNat_eq ?_
  have h' := congrArg BitVec.toNat h
  simp only [BitVec.extractLsb'_toNat, BitVec.toNat_ofNat, Nat.shiftRight_eq_div_pow,
    BitVec.toNat_setWidth] at h' ⊢
  have := arg.isLt
  omega

/-- A word whose bits 31:1 are zero is its low bit, zero-extended. -/
theorem word_of_bit {arg : Word} (h : arg.extractLsb' 1 31 = 0#31) :
    arg = (BitVec.ofBool (arg.getLsbD 0)).setWidth 32 := by
  have h' := congrArg BitVec.toNat h
  simp only [BitVec.extractLsb'_toNat, BitVec.toNat_ofNat, Nat.shiftRight_eq_div_pow] at h'
  have hl := arg.isLt
  have h2 : arg = 0#32 ∨ arg = 1#32 := by
    rcases (show arg.toNat = 0 ∨ arg.toNat = 1 by omega) with h0 | h1
    · exact .inl (BitVec.eq_of_toNat_eq h0)
    · exact .inr (BitVec.eq_of_toNat_eq h1)
  rcases h2 with rfl | rfl <;> rfl

@[simp] theorem cmdOpcode_encode (i : Instr) : cmdOpcode (encode i) = i.opcode := cmdOpcode_append _ _

@[simp] theorem cmdOperand_encode (i : Instr) : cmdOperand (encode i) = i.operand := cmdOperand_append _ _

/-- The value of the word `opcode << 32 | operand`. -/
theorem append_toNat (op : Byte) (arg : Word) : (op ++ arg : CmdWord).toNat = op.toNat * 2 ^ 32 + arg.toNat := by
  rw [BitVec.toNat_append, Nat.shiftLeft_eq, Nat.mul_comm, ← Nat.two_pow_add_eq_or_of_lt arg.isLt]

@[simp] theorem tableWord_toNat (w : CmdWord) : tableWord 40 w.toNat = w := by
  have := w.isLt
  rw [tableWord, Nat.mod_eq_of_lt this]
  simp

end Sys2Proof
end

