-- ==== Sys2Proof/Laws/Memory.lean ====
section
/-! SUPPORT. The laws of the chunk buffer: read after write, the canonical form, and slices. -/

namespace Sys2Proof.Machine

@[simp] theorem Memory.read_nil (i : Nat) : Memory.read [] i = 0x00#8 := rfl

@[simp] theorem Memory.wf_nil : Memory.wf [] = true := rfl

theorem Memory.wf_cons {b : Nat} {x : Byte} {m : Memory} :
    Memory.wf ((b, x) :: m) = true ↔
      b < 200 ∧ x ≠ 0x00#8 ∧ (∀ c ∈ m, b < c.1) ∧ Memory.wf m = true := by
  simp [Memory.wf, and_assoc]

/-- An index below every listed one reads 0. -/
theorem Memory.read_below {m : Memory} {i : Nat} (h : ∀ c ∈ m, i < c.1) : Memory.read m i = 0x00#8 := by
  induction m with
  | nil => rfl
  | cons c m ih =>
    obtain ⟨b, x⟩ := c
    have hb : i < b := h (b, x) (by simp)
    have : i ≠ b := by omega
    simp only [Memory.read, this, if_false]
    exact ih fun c hc => h c (by simp [hc])

/-- Reading after a write: the written byte at its index, every other byte as before. -/
theorem Memory.read_write {m : Memory} (hm : m.wf = true) (i a : Nat) (v : Byte) :
    (m.write i v).read a = if a = i then v else m.read a := by
  induction m with
  | nil =>
    by_cases hv : v = 0x00#8 <;> by_cases ha : a = i <;> simp [Memory.write, Memory.read, hv, ha]
  | cons c m ih =>
    obtain ⟨b, x⟩ := c
    obtain ⟨-, -, hlt, hwf⟩ := Memory.wf_cons.1 hm
    have hbelow : ∀ j, j < b → Memory.read m j = 0x00#8 := fun j hj =>
      Memory.read_below fun c hc => lt_trans hj (hlt c hc)
    have hb : Memory.read m b = 0x00#8 := Memory.read_below hlt
    simp only [Memory.write]
    rcases lt_trichotomy i b with h | h | h
    · have hne : i ≠ b := by omega
      rw [if_pos h]
      by_cases hv : v = 0x00#8
      · subst hv
        by_cases ha : a = i
        · subst ha; simp [Memory.read, hne, hbelow a h]
        · simp [ha]
      · by_cases ha : a = i <;> simp [Memory.read, hv, ha]
    · subst h
      rw [if_neg (lt_irrefl i), if_pos rfl]
      by_cases hv : v = 0x00#8
      · subst hv
        by_cases ha : a = i
        · subst ha; simp [hb]
        · simp [Memory.read, ha]
      · by_cases ha : a = i <;> simp [Memory.read, hv, ha]
    · have hne : i ≠ b := by omega
      rw [if_neg (by omega), if_neg hne]
      by_cases hab : a = b
      · subst hab; simp [Memory.read, Ne.symm hne]
      · simp [Memory.read, hab, ih hwf]

/-- A write lists no index that was not listed, but its own. -/
theorem Memory.mem_write {m : Memory} {i : Nat} {v : Byte} {c : Host.Cell} (h : c ∈ m.write i v) :
    c.1 = i ∨ c ∈ m := by
  induction m with
  | nil =>
    by_cases hv : v = 0x00#8
    · simp [Memory.write, hv] at h
    · simp only [Memory.write, hv, if_false, List.mem_singleton] at h
      exact .inl (by rw [h])
  | cons d m ih =>
    obtain ⟨b, x⟩ := d
    simp only [Memory.write] at h
    split at h
    · split at h
      · exact .inr h
      · rcases List.mem_cons.1 h with h | h
        · exact .inl (by rw [h])
        · exact .inr h
    · split at h
      · split at h
        · exact .inr (List.mem_cons_of_mem _ h)
        · rcases List.mem_cons.1 h with h | h
          · exact .inl (by rw [h])
          · exact .inr (List.mem_cons_of_mem _ h)
      · rcases List.mem_cons.1 h with h | h
        · exact .inr (by rw [h]; exact List.mem_cons_self)
        · exact (ih h).imp_right (List.mem_cons_of_mem _)

/-- A write inside the buffer keeps the canonical form. -/
theorem Memory.wf_write {m : Memory} (hm : m.wf = true) {i : Nat} (hi : i < 200) (v : Byte) :
    (m.write i v).wf = true := by
  induction m with
  | nil =>
    by_cases hv : v = 0x00#8 <;> simp [Memory.write, Memory.wf, hv, hi]
  | cons c m ih =>
    obtain ⟨b, x⟩ := c
    obtain ⟨hb, hx, hlt, hwf⟩ := Memory.wf_cons.1 hm
    simp only [Memory.write]
    split
    · split
      · exact hm
      · next hib hv =>
        refine Memory.wf_cons.2 ⟨hi, hv, ?_, hm⟩
        intro c hc
        rcases List.mem_cons.1 hc with rfl | hc
        · exact hib
        · exact lt_trans hib (hlt c hc)
    · split
      · next hib =>
        subst hib
        split
        · exact hwf
        · next hv => exact Memory.wf_cons.2 ⟨hi, hv, hlt, hwf⟩
      · next h1 h2 =>
        refine Memory.wf_cons.2 ⟨hb, hx, ?_, ih hwf⟩
        intro c hc
        rcases Memory.mem_write hc with h | h
        · rw [h]; omega
        · exact hlt c h

@[simp] theorem Memory.slice_length (m : Memory) (n : Nat) : (m.slice n).length = n := by
  simp [Memory.slice]

@[simp] theorem Memory.slice_zero (m : Memory) : m.slice 0 = [] := rfl

theorem Memory.slice_succ (m : Memory) (n : Nat) : m.slice (n + 1) = m.slice n ++ [m.read n] := by
  simp [Memory.slice, List.range_succ]

/-- Two memories that agree below `n` have the same slice. -/
theorem Memory.slice_congr {m m' : Memory} {n : Nat} (h : ∀ i, i < n → m.read i = m'.read i) :
    m.slice n = m'.slice n :=
  List.map_congr_left fun i hi => h i (List.mem_range.1 hi)

/-- A byte written at the end of a slice extends it and leaves the rest. -/
theorem Memory.slice_write {m : Memory} (hm : m.wf = true) (n : Nat) (v : Byte) :
    (m.write n v).slice (n + 1) = m.slice n ++ [v] := by
  rw [Memory.slice_succ, Memory.read_write hm, if_pos rfl]
  congr 1
  refine Memory.slice_congr fun i hi => ?_
  rw [Memory.read_write hm, if_neg (by omega)]

/-- A canonical memory that reads 0 everywhere lists nothing. -/
theorem Memory.eq_nil_of_read_zero {m : Memory} (hm : m.wf = true) (h : ∀ i, m.read i = 0x00#8) :
    m = [] := by
  cases m with
  | nil => rfl
  | cons c m =>
    obtain ⟨b, x⟩ := c
    obtain ⟨-, hx, -, -⟩ := Memory.wf_cons.1 hm
    exact absurd (by simpa [Memory.read] using h b) hx

end Sys2Proof.Machine
end

