-- ==== Sys2Proof/Laws/State.lean ====
section
/-! SUPPORT. What each named update of the state does to each field. -/

namespace Sys2Proof.Machine

@[simp] theorem raiseFault_crc16 (f : FaultReport) (s : State) : (raiseFault f s).crc16 = s.crc16 := rfl
@[simp] theorem raiseFault_crc32Run (f : FaultReport) (s : State) : (raiseFault f s).crc32Run = s.crc32Run := rfl
@[simp] theorem raiseFault_crc32A (f : FaultReport) (s : State) : (raiseFault f s).crc32A = s.crc32A := rfl
@[simp] theorem raiseFault_crc32Out (f : FaultReport) (s : State) : (raiseFault f s).crc32Out = s.crc32Out := rfl
@[simp] theorem raiseFault_length (f : FaultReport) (s : State) : (raiseFault f s).length = s.length := rfl
@[simp] theorem raiseFault_base (f : FaultReport) (s : State) : (raiseFault f s).base = s.base := rfl
@[simp] theorem raiseFault_idx (f : FaultReport) (s : State) : (raiseFault f s).idx = s.idx := rfl
@[simp] theorem raiseFault_fill (f : FaultReport) (s : State) : (raiseFault f s).fill = s.fill := rfl
@[simp] theorem raiseFault_buf (f : FaultReport) (s : State) : (raiseFault f s).buf = s.buf := rfl
@[simp] theorem raiseFault_pktCount (f : FaultReport) (s : State) : (raiseFault f s).pktCount = s.pktCount := rfl
@[simp] theorem raiseFault_phase (f : FaultReport) (s : State) : (raiseFault f s).phase = s.phase := rfl
@[simp] theorem raiseFault_append (f : FaultReport) (s : State) : (raiseFault f s).append = s.append := rfl
@[simp] theorem raiseFault_fault (f : FaultReport) (s : State) : (raiseFault f s).fault = f.code.number := rfl
@[simp] theorem raiseFault_finfo (f : FaultReport) (s : State) : (raiseFault f s).finfo = f.info := rfl
@[simp] theorem raiseFault_tx (f : FaultReport) (s : State) : (raiseFault f s).tx = s.tx := rfl
@[simp] theorem raiseFault_rsp (f : FaultReport) (s : State) : (raiseFault f s).rsp = s.rsp := rfl
@[simp] theorem raiseFault_inputs (f : FaultReport) (s : State) : (raiseFault f s).inputs = s.inputs := rfl

@[simp] theorem putResponse_crc16 (v : Word) (s : State) : (putResponse v s).crc16 = s.crc16 := rfl
@[simp] theorem putResponse_crc32Run (v : Word) (s : State) : (putResponse v s).crc32Run = s.crc32Run := rfl
@[simp] theorem putResponse_crc32A (v : Word) (s : State) : (putResponse v s).crc32A = s.crc32A := rfl
@[simp] theorem putResponse_crc32Out (v : Word) (s : State) : (putResponse v s).crc32Out = s.crc32Out := rfl
@[simp] theorem putResponse_length (v : Word) (s : State) : (putResponse v s).length = s.length := rfl
@[simp] theorem putResponse_base (v : Word) (s : State) : (putResponse v s).base = s.base := rfl
@[simp] theorem putResponse_idx (v : Word) (s : State) : (putResponse v s).idx = s.idx := rfl
@[simp] theorem putResponse_fill (v : Word) (s : State) : (putResponse v s).fill = s.fill := rfl
@[simp] theorem putResponse_buf (v : Word) (s : State) : (putResponse v s).buf = s.buf := rfl
@[simp] theorem putResponse_pktCount (v : Word) (s : State) : (putResponse v s).pktCount = s.pktCount := rfl
@[simp] theorem putResponse_phase (v : Word) (s : State) : (putResponse v s).phase = s.phase := rfl
@[simp] theorem putResponse_append (v : Word) (s : State) : (putResponse v s).append = s.append := rfl
@[simp] theorem putResponse_fault (v : Word) (s : State) : (putResponse v s).fault = s.fault := rfl
@[simp] theorem putResponse_finfo (v : Word) (s : State) : (putResponse v s).finfo = s.finfo := rfl
@[simp] theorem putResponse_tx (v : Word) (s : State) : (putResponse v s).tx = s.tx := rfl
@[simp] theorem putResponse_rsp (v : Word) (s : State) : (putResponse v s).rsp = s.rsp ++ [v] := rfl
@[simp] theorem putResponse_inputs (v : Word) (s : State) : (putResponse v s).inputs = s.inputs := rfl

@[simp] theorem present_crc16 (w : CmdWord) (s : State) : (present w s).crc16 = s.crc16 := rfl
@[simp] theorem present_crc32Run (w : CmdWord) (s : State) : (present w s).crc32Run = s.crc32Run := rfl
@[simp] theorem present_crc32A (w : CmdWord) (s : State) : (present w s).crc32A = s.crc32A := rfl
@[simp] theorem present_crc32Out (w : CmdWord) (s : State) : (present w s).crc32Out = s.crc32Out := rfl
@[simp] theorem present_length (w : CmdWord) (s : State) : (present w s).length = s.length := rfl
@[simp] theorem present_base (w : CmdWord) (s : State) : (present w s).base = s.base := rfl
@[simp] theorem present_idx (w : CmdWord) (s : State) : (present w s).idx = s.idx := rfl
@[simp] theorem present_fill (w : CmdWord) (s : State) : (present w s).fill = s.fill := rfl
@[simp] theorem present_buf (w : CmdWord) (s : State) : (present w s).buf = s.buf := rfl
@[simp] theorem present_pktCount (w : CmdWord) (s : State) : (present w s).pktCount = s.pktCount := rfl
@[simp] theorem present_phase (w : CmdWord) (s : State) : (present w s).phase = s.phase := rfl
@[simp] theorem present_append (w : CmdWord) (s : State) : (present w s).append = s.append := rfl
@[simp] theorem present_fault (w : CmdWord) (s : State) : (present w s).fault = s.fault := rfl
@[simp] theorem present_finfo (w : CmdWord) (s : State) : (present w s).finfo = s.finfo := rfl
@[simp] theorem present_tx (w : CmdWord) (s : State) : (present w s).tx = s.tx := rfl
@[simp] theorem present_rsp (w : CmdWord) (s : State) : (present w s).rsp = s.rsp := rfl
@[simp] theorem present_inputs (w : CmdWord) (s : State) : (present w s).inputs = .command w :: s.inputs := rfl

@[simp] theorem resetBlock_crc16 (s : State) : (resetBlock s).crc16 = 0xFFFF#16 := rfl
@[simp] theorem resetBlock_crc32Run (s : State) : (resetBlock s).crc32Run = 0xFFFFFFFF#32 := rfl
@[simp] theorem resetBlock_crc32A (s : State) : (resetBlock s).crc32A = 0#32 := rfl
@[simp] theorem resetBlock_crc32Out (s : State) : (resetBlock s).crc32Out = 0#32 := rfl
@[simp] theorem resetBlock_length (s : State) : (resetBlock s).length = 0#32 := rfl
@[simp] theorem resetBlock_base (s : State) : (resetBlock s).base = 0#32 := rfl
@[simp] theorem resetBlock_idx (s : State) : (resetBlock s).idx = 0 := rfl
@[simp] theorem resetBlock_fill (s : State) : (resetBlock s).fill = 0 := rfl
@[simp] theorem resetBlock_buf (s : State) : (resetBlock s).buf = [] := rfl
@[simp] theorem resetBlock_pktCount (s : State) : (resetBlock s).pktCount = 0#32 := rfl
@[simp] theorem resetBlock_phase (s : State) : (resetBlock s).phase = .idle := rfl
@[simp] theorem resetBlock_append (s : State) : (resetBlock s).append = false := rfl
@[simp] theorem resetBlock_fault (s : State) : (resetBlock s).fault = 0#8 := rfl
@[simp] theorem resetBlock_finfo (s : State) : (resetBlock s).finfo = 0#32 := rfl
@[simp] theorem resetBlock_tx (s : State) : (resetBlock s).tx = s.tx := rfl
@[simp] theorem resetBlock_rsp (s : State) : (resetBlock s).rsp = s.rsp := rfl
@[simp] theorem resetBlock_inputs (s : State) : (resetBlock s).inputs = s.inputs := rfl

@[simp] theorem storeByte_crc16 (v : Byte) (s : State) : (storeByte v s).crc16 = crc16Step s.crc16 v := rfl
@[simp] theorem storeByte_crc32Run (v : Byte) (s : State) : (storeByte v s).crc32Run = crc32Step s.crc32Run v := rfl
@[simp] theorem storeByte_crc32A (v : Byte) (s : State) : (storeByte v s).crc32A = s.crc32A := rfl
@[simp] theorem storeByte_crc32Out (v : Byte) (s : State) : (storeByte v s).crc32Out = s.crc32Out := rfl
@[simp] theorem storeByte_length (v : Byte) (s : State) : (storeByte v s).length = s.length := rfl
@[simp] theorem storeByte_base (v : Byte) (s : State) : (storeByte v s).base = s.base := rfl
@[simp] theorem storeByte_idx (v : Byte) (s : State) : (storeByte v s).idx = s.idx := rfl
@[simp] theorem storeByte_fill (v : Byte) (s : State) : (storeByte v s).fill = s.fill + 1 := rfl
@[simp] theorem storeByte_buf (v : Byte) (s : State) : (storeByte v s).buf = s.buf.write s.fill.val v := rfl
@[simp] theorem storeByte_pktCount (v : Byte) (s : State) : (storeByte v s).pktCount = s.pktCount := rfl
@[simp] theorem storeByte_phase (v : Byte) (s : State) : (storeByte v s).phase = s.phase := rfl
@[simp] theorem storeByte_append (v : Byte) (s : State) : (storeByte v s).append = s.append := rfl
@[simp] theorem storeByte_fault (v : Byte) (s : State) : (storeByte v s).fault = s.fault := rfl
@[simp] theorem storeByte_finfo (v : Byte) (s : State) : (storeByte v s).finfo = s.finfo := rfl
@[simp] theorem storeByte_tx (v : Byte) (s : State) : (storeByte v s).tx = s.tx := rfl
@[simp] theorem storeByte_rsp (v : Byte) (s : State) : (storeByte v s).rsp = s.rsp := rfl
@[simp] theorem storeByte_inputs (v : Byte) (s : State) : (storeByte v s).inputs = s.inputs := rfl

@[simp] theorem sendFrame_crc16 (f : Frame) (k : Nat) (s : State) : (sendFrame f k s).crc16 = 0xFFFF#16 := rfl
@[simp] theorem sendFrame_crc32Run (f : Frame) (k : Nat) (s : State) : (sendFrame f k s).crc32Run = s.crc32Run := rfl
@[simp] theorem sendFrame_crc32A (f : Frame) (k : Nat) (s : State) : (sendFrame f k s).crc32A = s.crc32A := rfl
@[simp] theorem sendFrame_crc32Out (f : Frame) (k : Nat) (s : State) : (sendFrame f k s).crc32Out = s.crc32Out := rfl
@[simp] theorem sendFrame_length (f : Frame) (k : Nat) (s : State) : (sendFrame f k s).length = BitVec.ofNat 32 (s.length.toNat + k) := rfl
@[simp] theorem sendFrame_base (f : Frame) (k : Nat) (s : State) : (sendFrame f k s).base = s.base := rfl
@[simp] theorem sendFrame_idx (f : Frame) (k : Nat) (s : State) : (sendFrame f k s).idx = s.idx + 1 := rfl
@[simp] theorem sendFrame_fill (f : Frame) (k : Nat) (s : State) : (sendFrame f k s).fill = 0 := rfl
@[simp] theorem sendFrame_buf (f : Frame) (k : Nat) (s : State) : (sendFrame f k s).buf = [] := rfl
@[simp] theorem sendFrame_pktCount (f : Frame) (k : Nat) (s : State) : (sendFrame f k s).pktCount = s.pktCount + 1#32 := rfl
@[simp] theorem sendFrame_phase (f : Frame) (k : Nat) (s : State) : (sendFrame f k s).phase = s.phase := rfl
@[simp] theorem sendFrame_append (f : Frame) (k : Nat) (s : State) : (sendFrame f k s).append = s.append := rfl
@[simp] theorem sendFrame_fault (f : Frame) (k : Nat) (s : State) : (sendFrame f k s).fault = s.fault := rfl
@[simp] theorem sendFrame_finfo (f : Frame) (k : Nat) (s : State) : (sendFrame f k s).finfo = s.finfo := rfl
@[simp] theorem sendFrame_tx (f : Frame) (k : Nat) (s : State) : (sendFrame f k s).tx = s.tx ++ [f] := rfl
@[simp] theorem sendFrame_rsp (f : Frame) (k : Nat) (s : State) : (sendFrame f k s).rsp = s.rsp := rfl
@[simp] theorem sendFrame_inputs (f : Frame) (k : Nat) (s : State) : (sendFrame f k s).inputs = s.inputs := rfl

@[simp] theorem takeInput_crc16 (rest : List HostInput) (s : State) : (takeInput rest s).crc16 = s.crc16 := rfl
@[simp] theorem takeInput_crc32Run (rest : List HostInput) (s : State) : (takeInput rest s).crc32Run = s.crc32Run := rfl
@[simp] theorem takeInput_crc32A (rest : List HostInput) (s : State) : (takeInput rest s).crc32A = s.crc32A := rfl
@[simp] theorem takeInput_crc32Out (rest : List HostInput) (s : State) : (takeInput rest s).crc32Out = s.crc32Out := rfl
@[simp] theorem takeInput_length (rest : List HostInput) (s : State) : (takeInput rest s).length = s.length := rfl
@[simp] theorem takeInput_base (rest : List HostInput) (s : State) : (takeInput rest s).base = s.base := rfl
@[simp] theorem takeInput_idx (rest : List HostInput) (s : State) : (takeInput rest s).idx = s.idx := rfl
@[simp] theorem takeInput_fill (rest : List HostInput) (s : State) : (takeInput rest s).fill = s.fill := rfl
@[simp] theorem takeInput_buf (rest : List HostInput) (s : State) : (takeInput rest s).buf = s.buf := rfl
@[simp] theorem takeInput_pktCount (rest : List HostInput) (s : State) : (takeInput rest s).pktCount = s.pktCount := rfl
@[simp] theorem takeInput_phase (rest : List HostInput) (s : State) : (takeInput rest s).phase = s.phase := rfl
@[simp] theorem takeInput_append (rest : List HostInput) (s : State) : (takeInput rest s).append = s.append := rfl
@[simp] theorem takeInput_fault (rest : List HostInput) (s : State) : (takeInput rest s).fault = s.fault := rfl
@[simp] theorem takeInput_finfo (rest : List HostInput) (s : State) : (takeInput rest s).finfo = s.finfo := rfl
@[simp] theorem takeInput_tx (rest : List HostInput) (s : State) : (takeInput rest s).tx = s.tx := rfl
@[simp] theorem takeInput_rsp (rest : List HostInput) (s : State) : (takeInput rest s).rsp = s.rsp := rfl
@[simp] theorem takeInput_inputs (rest : List HostInput) (s : State) : (takeInput rest s).inputs = rest := rfl

end Sys2Proof.Machine
end

