-- ==== Sys2Proof/Laws/Ops.lean ====
section
/-! SUPPORT. What each shared operation can do, said once. -/

namespace Sys2Proof.Machine

/-- A command of the ordinary kind answers a next state and nothing else: it is ignored, or it has its
effect, or it enters a fault. -/
theorem attempt_cases {body : State → Except FaultReport State} {s t : State}
    (h : attempt body s = .next t) :
    (s.fault ≠ 0#8 ∧ t = s) ∨
    (s.fault = 0#8 ∧ body s = .ok t) ∨
    (s.fault = 0#8 ∧ ∃ f, body s = .error f ∧ t = raiseFault f s) := by
  unfold attempt at h
  by_cases hf : s.fault = 0#8
  · rw [if_pos hf] at h
    cases hb : body s with
    | ok u => rw [hb] at h; cases h; exact .inr (.inl ⟨hf, rfl⟩)
    | error f => rw [hb] at h; cases h; exact .inr (.inr ⟨hf, f, rfl, rfl⟩)
  · rw [if_neg hf] at h; cases h; exact .inl ⟨hf, rfl⟩

/-- While faulted the command is ignored. -/
theorem attempt_faulted {body : State → Except FaultReport State} {s : State} (h : s.fault ≠ 0#8) :
    attempt body s = .next s := if_neg h

/-- A command whose checks pass has its effect. -/
theorem attempt_ok {body : State → Except FaultReport State} {s t : State} (h : s.fault = 0#8)
    (hb : body s = .ok t) : attempt body s = .next t := by
  rw [attempt, if_pos h, hb]

/-- A command whose check fails enters the fault. -/
theorem attempt_error {body : State → Except FaultReport State} {s : State} {f : FaultReport}
    (h : s.fault = 0#8) (hb : body s = .error f) : attempt body s = .next (raiseFault f s) := by
  rw [attempt, if_pos h, hb]

/-- Every command of the ordinary kind completes. -/
theorem attempt_next (body : State → Except FaultReport State) (s : State) :
    ∃ t, attempt body s = .next t := by
  unfold attempt
  split
  · split <;> exact ⟨_, rfl⟩
  · exact ⟨_, rfl⟩

theorem rejectWord_cases {opcode : Byte} {s t : State} (h : rejectWord opcode s = .next t) :
    (s.fault ≠ 0#8 ∧ t = s) ∨ (s.fault = 0#8 ∧ t = raiseFault (illegalFault opcode) s) := by
  rcases attempt_cases h with h | ⟨_, h⟩ | ⟨hf, f, he, rfl⟩
  · exact .inl h
  · cases h
  · cases he; exact .inr ⟨hf, rfl⟩

@[simp] theorem fetch_nil {s : State} (h : s.inputs = []) : fetch s = none := by simp [fetch, h]

@[simp] theorem fetch_cons {s : State} {h : HostInput} {rest : List HostInput}
    (hi : s.inputs = h :: rest) : fetch s = some (h, takeInput rest s) := by simp [fetch, hi]

theorem faultCode_number_ne_zero (c : FaultCode) : c.number ≠ 0#8 := by cases c <;> decide

theorem faultCode_number_le (c : FaultCode) : c.number.toNat ≤ 6 := by cases c <;> decide

/-- The emission procedure answers in one of three ways. -/
theorem emit_cases (k : Nat) (crc : Half) (data : List Byte) (s : State) :
    (2 ^ 32 ≤ packetAddress s ∧ emit k crc data s = .error ⟨.addrOvf, BitVec.ofNat 32 s.idx⟩) ∨
    (packetAddress s < 2 ^ 32 ∧ 2 ^ 32 ≤ s.length.toNat + k ∧
      emit k crc data s = .error ⟨.lenOvf, s.length⟩) ∨
    (packetAddress s < 2 ^ 32 ∧ s.length.toNat + k < 2 ^ 32 ∧
      emit k crc data s =
        .ok (sendFrame (encodeFrame (BitVec.ofNat 32 (packetAddress s)) k crc data) k s)) := by
  unfold emit
  by_cases h1 : 2 ^ 32 ≤ packetAddress s
  · exact .inl ⟨h1, if_pos h1⟩
  · by_cases h2 : 2 ^ 32 ≤ s.length.toNat + k
    · exact .inr (.inl ⟨by omega, h2, by rw [if_neg h1, if_pos h2]⟩)
    · exact .inr (.inr ⟨by omega, by omega, by rw [if_neg h1, if_neg h2]⟩)

end Sys2Proof.Machine
end

