-- ==== Sys2Proof/Laws/Exec.lean ====
section
/-! SUPPORT. Everything a command, and a step, can do, said once: later proofs take a case of these and
unfold no meaning. -/

namespace Sys2Proof.Machine

open Sys2Proof.Safety (phaseNeeded)

/-- The frame of a packet that carries `data` at the next packet address. -/
def nextFrame (k : Nat) (crc : Half) (data : List Byte) (s : State) : Frame :=
  encodeFrame (BitVec.ofNat 32 (packetAddress s)) k crc data

/-- The state after DAT's 200th byte (R126). -/
def afterChunk (v : Byte) (s : State) : State :=
  { sendFrame (nextFrame 200 (crc16Step s.crc16 v) (s.buf.slice 199 ++ [v]) s) 200 s with
    crc32Run := crc32Step s.crc32Run v }

/-- The state after END's tail frame (R130). -/
def afterTail (s : State) : State :=
  { sendFrame (nextFrame s.fill.val s.crc16 (s.buf.slice s.fill.val) s) s.fill.val s with phase := .idle }

/-- The state after RGN (R125). -/
def afterRgn (base : Word) (s : State) : State :=
  { s with base := base, idx := 0, fill := 0, crc16 := 0xFFFF#16, phase := .regionOpen }

/-- The digest FIN leaves (R114, R115). -/
def finRun (append : Bool) (s : State) : Word :=
  if append then crc32Feed s.crc32Run (le32 s.crc32Run) else s.crc32Run

/-- The state after FIN (R114). -/
def afterFin (append : Bool) (s : State) : State :=
  { s with crc32Run := finRun append s, crc32A := s.crc32Run, crc32Out := finRun append s,
           append := append, phase := .done }

@[simp] theorem crc32Finalize_eq (c : Word) : crc32Finalize c = c := by
  simp [crc32Finalize]

/-- Which check of a command fails, in an unfaulted state, and the fault it raises (R165, R174). -/
inductive Raises (s : State) : Instr → FaultReport → Prop
  | reserved (reg : Byte) : 9 < reg.toNat → Raises s (.rd reg) (illegalFault Opcode.rd)
  | seq {i} (p : Phase) : phaseNeeded i = some p → s.phase ≠ p → Raises s i (seqFault i.opcode)
  | align : s.phase = .regionOpen → s.fill.val % 8 ≠ 0 →
      Raises s .endRgn ⟨.align, BitVec.ofNat 32 s.fill.val⟩
  | chunkAddr (v : Byte) : s.phase = .regionOpen → s.fill.val = 199 → 2 ^ 32 ≤ packetAddress s →
      Raises s (.dat v) ⟨.addrOvf, BitVec.ofNat 32 s.idx⟩
  | chunkLen (v : Byte) : s.phase = .regionOpen → s.fill.val = 199 → packetAddress s < 2 ^ 32 →
      2 ^ 32 ≤ s.length.toNat + 200 → Raises s (.dat v) ⟨.lenOvf, s.length⟩
  | tailAddr : s.phase = .regionOpen → s.fill.val ≠ 0 → s.fill.val % 8 = 0 → 2 ^ 32 ≤ packetAddress s →
      Raises s .endRgn ⟨.addrOvf, BitVec.ofNat 32 s.idx⟩
  | tailLen : s.phase = .regionOpen → s.fill.val ≠ 0 → s.fill.val % 8 = 0 → packetAddress s < 2 ^ 32 →
      2 ^ 32 ≤ s.length.toNat + s.fill.val → Raises s .endRgn ⟨.lenOvf, s.length⟩
  | mismatch (value : Word) : s.phase = .done → value ≠ s.crc32Out →
      Raises s (.chk value) ⟨.mismatch, value⟩

/-- What a command can do. -/
inductive ExecCase (s : State) : Instr → State → Prop
  /-- Ignored while faulted. -/
  | ignored {i} : s.fault ≠ 0#8 → i ≠ .rst → (∀ r : Byte, r.toNat ≤ 9 → i ≠ .rd r) → ExecCase s i s
  | nop : s.fault = 0#8 → ExecCase s .nop s
  /-- A check failed; nothing else changed. -/
  | raised {i} (f : FaultReport) : s.fault = 0#8 → i ≠ .rst → i ≠ .nop → Raises s i f →
      ExecCase s i (raiseFault f s)
  | rst : ExecCase s .rst (resetBlock s)
  | rgn (base : Word) : s.fault = 0#8 → s.phase = .idle → ExecCase s (.rgn base) (afterRgn base s)
  | stored (v : Byte) : s.fault = 0#8 → s.phase = .regionOpen → s.fill.val < 199 →
      ExecCase s (.dat v) (storeByte v s)
  | chunk (v : Byte) : s.fault = 0#8 → s.phase = .regionOpen → s.fill.val = 199 →
      packetAddress s < 2 ^ 32 → s.length.toNat + 200 < 2 ^ 32 →
      ExecCase s (.dat v) (afterChunk v s)
  | closed : s.fault = 0#8 → s.phase = .regionOpen → s.fill.val = 0 →
      ExecCase s .endRgn { s with phase := .idle }
  | tail : s.fault = 0#8 → s.phase = .regionOpen → s.fill.val ≠ 0 → s.fill.val % 8 = 0 →
      packetAddress s < 2 ^ 32 → s.length.toNat + s.fill.val < 2 ^ 32 →
      ExecCase s .endRgn (afterTail s)
  | fin (append : Bool) : s.fault = 0#8 → s.phase = .idle → ExecCase s (.fin append) (afterFin append s)
  | chk : s.fault = 0#8 → s.phase = .done → ExecCase s (.chk s.crc32Out) s
  | rd (reg : Byte) (v : Word) : reg.toNat ≤ 9 → readRegister s reg = some v →
      ExecCase s (.rd reg) (putResponse v s)

/-! ### When each command has its effect -/

theorem execRst_eq (s : State) : execRst s = .next (resetBlock s) := rfl

theorem execNop_eq (s : State) : execNop s = .next s := by
  by_cases h : s.fault = 0#8
  · exact attempt_ok h rfl
  · exact attempt_faulted h

theorem execRgn_eq {base : Word} {s : State} (hf : s.fault = 0#8) (hp : s.phase = .idle) :
    execRgn base s = .next (afterRgn base s) :=
  attempt_ok hf (if_pos hp)

theorem execDat_store {v : Byte} {s : State} (hf : s.fault = 0#8) (hp : s.phase = .regionOpen)
    (hl : s.fill.val < 199) : execDat v s = .next (storeByte v s) :=
  attempt_ok hf (by rw [datEffect, if_pos hp, if_pos hl])

theorem completeChunk_eq {v : Byte} {s : State} (ha : packetAddress s < 2 ^ 32)
    (hl : s.length.toNat + 200 < 2 ^ 32) : completeChunk v s = .ok (afterChunk v s) := by
  rcases emit_cases 200 (crc16Step s.crc16 v) (s.buf.slice 199 ++ [v]) s with h | h | h
  · omega
  · omega
  · rw [completeChunk, h.2.2]; rfl

theorem execDat_chunk {v : Byte} {s : State} (hf : s.fault = 0#8) (hp : s.phase = .regionOpen)
    (hl : s.fill.val = 199) (ha : packetAddress s < 2 ^ 32) (hn : s.length.toNat + 200 < 2 ^ 32) :
    execDat v s = .next (afterChunk v s) :=
  attempt_ok hf (by rw [datEffect, if_pos hp, if_neg (by omega), completeChunk_eq ha hn])

theorem execEndRgn_close {s : State} (hf : s.fault = 0#8) (hp : s.phase = .regionOpen)
    (hl : s.fill.val = 0) : execEndRgn s = .next { s with phase := .idle } :=
  attempt_ok hf (by rw [endEffect, if_pos hp, if_pos hl])

theorem emitTail_eq {s : State} (ha : packetAddress s < 2 ^ 32)
    (hl : s.length.toNat + s.fill.val < 2 ^ 32) : emitTail s = .ok (afterTail s) := by
  rcases emit_cases s.fill.val s.crc16 (s.buf.slice s.fill.val) s with h | h | h
  · omega
  · omega
  · rw [emitTail, h.2.2]; rfl

theorem execEndRgn_tail {s : State} (hf : s.fault = 0#8) (hp : s.phase = .regionOpen)
    (h0 : s.fill.val ≠ 0) (h8 : s.fill.val % 8 = 0) (ha : packetAddress s < 2 ^ 32)
    (hn : s.length.toNat + s.fill.val < 2 ^ 32) : execEndRgn s = .next (afterTail s) :=
  attempt_ok hf (by
    rw [endEffect, if_pos hp, if_neg h0, if_neg (not_not.2 h8), emitTail_eq ha hn])

theorem execFin_eq {append : Bool} {s : State} (hf : s.fault = 0#8) (hp : s.phase = .idle) :
    execFin append s = .next (afterFin append s) :=
  attempt_ok hf (by rw [finEffect, if_pos hp]; simp [afterFin, finRun])

theorem execChk_eq {s : State} (hf : s.fault = 0#8) (hp : s.phase = .done) :
    execChk s.crc32Out s = .next s :=
  attempt_ok hf (by rw [chkEffect, if_pos hp, if_pos rfl])

/-! ### Where each command faults -/

theorem execRgn_seq {base : Word} {s : State} (hf : s.fault = 0#8) (hp : s.phase ≠ .idle) :
    execRgn base s = .next (raiseFault (seqFault Opcode.rgn) s) :=
  attempt_error hf (by rw [rgnEffect, if_neg hp])

theorem execDat_seq {v : Byte} {s : State} (hf : s.fault = 0#8) (hp : s.phase ≠ .regionOpen) :
    execDat v s = .next (raiseFault (seqFault Opcode.dat) s) :=
  attempt_error hf (by rw [datEffect, if_neg hp])

theorem execEndRgn_seq {s : State} (hf : s.fault = 0#8) (hp : s.phase ≠ .regionOpen) :
    execEndRgn s = .next (raiseFault (seqFault Opcode.endRgn) s) :=
  attempt_error hf (by rw [endEffect, if_neg hp])

theorem execFin_seq {append : Bool} {s : State} (hf : s.fault = 0#8) (hp : s.phase ≠ .idle) :
    execFin append s = .next (raiseFault (seqFault Opcode.fin) s) :=
  attempt_error hf (by rw [finEffect, if_neg hp])

theorem execChk_seq {value : Word} {s : State} (hf : s.fault = 0#8) (hp : s.phase ≠ .done) :
    execChk value s = .next (raiseFault (seqFault Opcode.chk) s) :=
  attempt_error hf (by rw [chkEffect, if_neg hp])

theorem execChk_mismatch {value : Word} {s : State} (hf : s.fault = 0#8) (hp : s.phase = .done)
    (hv : value ≠ s.crc32Out) : execChk value s = .next (raiseFault ⟨.mismatch, value⟩ s) :=
  attempt_error hf (by rw [chkEffect, if_pos hp, if_neg hv])

theorem emit_addrOvf {k : Nat} {crc : Half} {data : List Byte} {s : State}
    (h : 2 ^ 32 ≤ packetAddress s) :
    emit k crc data s = .error ⟨.addrOvf, BitVec.ofNat 32 s.idx⟩ := if_pos h

theorem emit_lenOvf {k : Nat} {crc : Half} {data : List Byte} {s : State}
    (ha : packetAddress s < 2 ^ 32) (hl : 2 ^ 32 ≤ s.length.toNat + k) :
    emit k crc data s = .error ⟨.lenOvf, s.length⟩ := by
  rw [emit, if_neg (by omega), if_pos hl]

/-- A fault of the emission is DAT's fault. -/
theorem execDat_emit_error {v : Byte} {s : State} {f : FaultReport} (hf : s.fault = 0#8)
    (hp : s.phase = .regionOpen) (h9 : s.fill.val = 199)
    (he : emit 200 (crc16Step s.crc16 v) (s.buf.slice 199 ++ [v]) s = .error f) :
    execDat v s = .next (raiseFault f s) :=
  attempt_error hf (by rw [datEffect, if_pos hp, if_neg (by omega), completeChunk, he])

theorem execEndRgn_align {s : State} (hf : s.fault = 0#8) (hp : s.phase = .regionOpen)
    (h8 : s.fill.val % 8 ≠ 0) :
    execEndRgn s = .next (raiseFault ⟨.align, BitVec.ofNat 32 s.fill.val⟩ s) := by
  have h0 : s.fill.val ≠ 0 := fun h => h8 (by rw [h])
  exact attempt_error hf (by rw [endEffect, if_pos hp, if_neg h0, if_pos h8])

/-- A fault of the emission is END's fault. -/
theorem execEndRgn_emit_error {s : State} {f : FaultReport} (hf : s.fault = 0#8)
    (hp : s.phase = .regionOpen) (h0 : s.fill.val ≠ 0) (h8 : s.fill.val % 8 = 0)
    (he : emit s.fill.val s.crc16 (s.buf.slice s.fill.val) s = .error f) :
    execEndRgn s = .next (raiseFault f s) :=
  attempt_error hf (by
    rw [endEffect, if_pos hp, if_neg h0, if_neg (not_not.2 h8), emitTail, he])

/-! ### The register file -/

theorem readRegister_isSome {s : State} {reg : Byte} (h : reg.toNat ≤ 9) :
    ∃ v, readRegister s reg = some v := by
  unfold readRegister
  generalize reg.toNat = n at h ⊢
  match n, h with
  | 0, _ | 1, _ | 2, _ | 3, _ | 4, _ | 5, _ | 6, _ | 7, _ | 8, _ | 9, _ => exact ⟨_, rfl⟩

theorem readRegister_reserved {s : State} {reg : Byte} (h : 9 < reg.toNat) :
    readRegister s reg = none := by
  unfold readRegister
  generalize reg.toNat = n at h ⊢
  match n, h with
  | n + 10, _ => rfl

theorem execRd_eq {s : State} {reg : Byte} {v : Word} (h : readRegister s reg = some v) :
    execRd reg s = .next (putResponse v s) := by
  rw [execRd, h]

/-! ### The inversion lemmas -/

/-- A command that answers a next state did one of these things. -/
theorem exec_cases {i : Instr} {s t : State} (h : exec i s = .next t) : ExecCase s i t := by
  cases i with
  | nop =>
    have : t = s := by
      have h' : execNop s = .next t := h
      rw [execNop_eq] at h'; cases h'; rfl
    subst this
    by_cases hf : t.fault = 0#8
    · exact .nop hf
    · exact .ignored hf (by simp) (by simp)
  | rst => cases h; exact .rst
  | rgn base =>
    rcases attempt_cases (show attempt (rgnEffect base) s = .next t from h) with
      ⟨hf, rfl⟩ | ⟨hf, hb⟩ | ⟨hf, f, he, rfl⟩
    · exact .ignored hf (by simp) (by simp)
    · unfold rgnEffect at hb
      split at hb
      · next hp => cases hb; exact .rgn base hf hp
      · cases hb
    · unfold rgnEffect at he
      split at he
      · cases he
      · next hp => cases he; exact .raised _ hf (by simp) (by simp) (.seq .idle rfl hp)
  | dat v =>
    rcases attempt_cases (show attempt (datEffect v) s = .next t from h) with
      ⟨hf, rfl⟩ | ⟨hf, hb⟩ | ⟨hf, f, he, rfl⟩
    · exact .ignored hf (by simp) (by simp)
    · unfold datEffect at hb
      split at hb
      · next hp =>
        split at hb
        · next hl => cases hb; exact .stored v hf hp hl
        · next hl =>
          have h9 : s.fill.val = 199 := by have := s.fill.isLt; omega
          rcases emit_cases 200 (crc16Step s.crc16 v) (s.buf.slice 199 ++ [v]) s with e | e | e
          · rw [completeChunk, e.2] at hb; cases hb
          · rw [completeChunk, e.2.2] at hb; cases hb
          · rw [completeChunk_eq e.1 e.2.1] at hb; cases hb; exact .chunk v hf hp h9 e.1 e.2.1
      · cases hb
    · refine .raised f hf (by simp) (by simp) ?_
      unfold datEffect at he
      split at he
      · next hp =>
        split at he
        · cases he
        · next hl =>
          have h9 : s.fill.val = 199 := by have := s.fill.isLt; omega
          rcases emit_cases 200 (crc16Step s.crc16 v) (s.buf.slice 199 ++ [v]) s with e | e | e
          · rw [completeChunk, e.2] at he; cases he; exact .chunkAddr v hp h9 e.1
          · rw [completeChunk, e.2.2] at he; cases he; exact .chunkLen v hp h9 e.1 e.2.1
          · rw [completeChunk_eq e.1 e.2.1] at he; cases he
      · next hp => cases he; exact .seq .regionOpen rfl hp
  | endRgn =>
    rcases attempt_cases (show attempt endEffect s = .next t from h) with
      ⟨hf, rfl⟩ | ⟨hf, hb⟩ | ⟨hf, f, he, rfl⟩
    · exact .ignored hf (by simp) (by simp)
    · unfold endEffect at hb
      split at hb
      · next hp =>
        split at hb
        · next h0 => cases hb; exact .closed hf hp h0
        · next h0 =>
          split at hb
          · cases hb
          · next h8 =>
            rcases emit_cases s.fill.val s.crc16 (s.buf.slice s.fill.val) s with e | e | e
            · rw [emitTail, e.2] at hb; cases hb
            · rw [emitTail, e.2.2] at hb; cases hb
            · rw [emitTail_eq e.1 e.2.1] at hb; cases hb
              exact .tail hf hp h0 (not_not.1 h8) e.1 e.2.1
      · cases hb
    · refine .raised f hf (by simp) (by simp) ?_
      unfold endEffect at he
      split at he
      · next hp =>
        split at he
        · cases he
        · next h0 =>
          split at he
          · next h8 => cases he; exact .align hp h8
          · next h8 =>
            rcases emit_cases s.fill.val s.crc16 (s.buf.slice s.fill.val) s with e | e | e
            · rw [emitTail, e.2] at he; cases he; exact .tailAddr hp h0 (not_not.1 h8) e.1
            · rw [emitTail, e.2.2] at he; cases he; exact .tailLen hp h0 (not_not.1 h8) e.1 e.2.1
            · rw [emitTail_eq e.1 e.2.1] at he; cases he
      · next hp => cases he; exact .seq .regionOpen rfl hp
  | fin append =>
    rcases attempt_cases (show attempt (finEffect append) s = .next t from h) with
      ⟨hf, rfl⟩ | ⟨hf, hb⟩ | ⟨hf, f, he, rfl⟩
    · exact .ignored hf (by simp) (by simp)
    · by_cases hp : s.phase = .idle
      · have := execFin_eq (append := append) hf hp
        rw [execFin, attempt_ok hf hb] at this
        cases this; exact .fin append hf hp
      · rw [finEffect, if_neg hp] at hb; cases hb
    · unfold finEffect at he
      split at he
      · cases he
      · next hp => cases he; exact .raised _ hf (by simp) (by simp) (.seq .idle rfl hp)
  | chk value =>
    rcases attempt_cases (show attempt (chkEffect value) s = .next t from h) with
      ⟨hf, rfl⟩ | ⟨hf, hb⟩ | ⟨hf, f, he, rfl⟩
    · exact .ignored hf (by simp) (by simp)
    · unfold chkEffect at hb
      split at hb
      · next hp =>
        split at hb
        · next hv => cases hb; subst hv; exact .chk hf hp
        · cases hb
      · cases hb
    · unfold chkEffect at he
      split at he
      · next hp =>
        split at he
        · cases he
        · next hv => cases he; exact .raised _ hf (by simp) (by simp) (.mismatch value hp hv)
      · next hp => cases he; exact .raised _ hf (by simp) (by simp) (.seq .done rfl hp)
  | rd reg =>
    by_cases hr : reg.toNat ≤ 9
    · obtain ⟨v, hv⟩ := readRegister_isSome (s := s) hr
      have h' : execRd reg s = .next t := h
      rw [execRd_eq hv] at h'; cases h'
      exact .rd reg v hr hv
    · have h' : execRd reg s = .next t := h
      rw [execRd, readRegister_reserved (by omega)] at h'
      rcases rejectWord_cases h' with ⟨hf, rfl⟩ | ⟨hf, rfl⟩
      · exact .ignored hf (by simp) (by rintro r hle ⟨⟩; exact hr hle)
      · exact .raised _ hf (by simp) (by simp) (.reserved reg (by omega))

/-! ### The step -/

theorem step_command {s : State} {w : CmdWord} {rest : List HostInput} {i : Instr}
    (hi : s.inputs = .command w :: rest) (hd : decode w = .ok i) :
    step s = exec i (takeInput rest s) := by
  simp [step, fetch_cons hi, hd]

theorem step_rejects {s : State} {w : CmdWord} {rest : List HostInput} {e : DecodeError}
    (hi : s.inputs = .command w :: rest) (hd : decode w = .error e) :
    step s = rejectWord (cmdOpcode w) (takeInput rest s) := by
  simp [step, fetch_cons hi, hd]

theorem rejectWord_unfaulted {op : Byte} {s : State} (hf : s.fault = 0#8) :
    rejectWord op s = .next (raiseFault (illegalFault op) s) := attempt_error hf rfl

theorem rejectWord_faulted {op : Byte} {s : State} (hf : s.fault ≠ 0#8) :
    rejectWord op s = .next s := attempt_faulted hf

/-- What a step can do. -/
inductive StepCase (s : State) : State → Prop
  /-- The host presents nothing. -/
  | waits : s.inputs = [] → StepCase s s
  | hardwareReset (rest : List HostInput) : s.inputs = .reset :: rest →
      StepCase s (resetBlock (takeInput rest s))
  /-- A word that is no command, while faulted. -/
  | ignored (w : CmdWord) (e : DecodeError) (rest : List HostInput) :
      s.inputs = .command w :: rest → decode w = .error e → s.fault ≠ 0#8 →
      StepCase s (takeInput rest s)
  /-- A word that is no command. -/
  | illegal (w : CmdWord) (e : DecodeError) (rest : List HostInput) :
      s.inputs = .command w :: rest → decode w = .error e → s.fault = 0#8 →
      StepCase s (raiseFault (illegalFault (cmdOpcode w)) (takeInput rest s))
  | executes (w : CmdWord) (i : Instr) (rest : List HostInput) (t : State) :
      s.inputs = .command w :: rest → decode w = .ok i → exec i (takeInput rest s) = .next t →
      ExecCase (takeInput rest s) i t → StepCase s t

/-- A step that answers a next state did one of these things. -/
theorem step_cases {s t : State} (h : step s = .next t) : StepCase s t := by
  cases hi : s.inputs with
  | nil => rw [step, fetch_nil hi] at h; cases h; exact .waits hi
  | cons x rest =>
    rw [step, fetch_cons hi] at h
    cases x with
    | reset => cases h; exact .hardwareReset rest hi
    | command w =>
      simp only at h
      cases hd : decode w with
      | ok i => rw [hd] at h; exact .executes w i rest t hi hd h (exec_cases h)
      | error e =>
        rw [hd] at h
        rcases rejectWord_cases h with ⟨hf, rfl⟩ | ⟨hf, rfl⟩
        · exact .ignored w e rest hi hd hf
        · exact .illegal w e rest hi hd hf

end Sys2Proof.Machine
end

