-- ==== Sys2Proof/Laws/Frame.lean ====
section
/-! SUPPORT. A frame as its twelve leading bytes, its data field and its four trailing bytes, and what reading
each part gives. -/

namespace Sys2Proof.Machine

open Sys2Proof.Safety

/-- Offsets 0 to 11 of a frame (R70). -/
def frameHeader (order : ByteOrder) (pad : Byte) (address : Word) (k : Nat) (crc : Half) : List Byte :=
  [Config.bootChar, Config.updateChar, pad, pad] ++ wordBytes order address
    ++ [BitVec.ofNat 8 k, pad] ++ halfBytes order crc

/-- Offsets 212 to 215 of a frame (R70). -/
def frameTrailer (pad : Byte) : List Byte := [Config.eopChar, pad, pad, pad]

@[simp] theorem wordBytes_length (order : ByteOrder) (v : Word) : (wordBytes order v).length = 4 := by
  cases order <;> rfl

@[simp] theorem halfBytes_length (order : ByteOrder) (v : Half) : (halfBytes order v).length = 2 := by
  cases order <;> rfl

@[simp] theorem frameHeader_length (order : ByteOrder) (pad : Byte) (address : Word) (k : Nat)
    (crc : Half) : (frameHeader order pad address k crc).length = 12 := by
  simp [frameHeader]

@[simp] theorem frameTrailer_length (pad : Byte) : (frameTrailer pad).length = 4 := rfl

/-- The three parts of a frame. -/
theorem encodeFrameWith_parts (order : ByteOrder) (pad : Byte) (address : Word) (k : Nat) (crc : Half)
    (data : List Byte) :
    encodeFrameWith order pad address k crc data =
      frameHeader order pad address k crc ++ ((data ++ List.replicate (200 - k) 0x00#8) ++ frameTrailer pad) := by
  simp [encodeFrameWith, frameHeader, frameTrailer]

theorem encodeFrame_eq (address : Word) (k : Nat) (crc : Half) (data : List Byte) :
    encodeFrame address k crc data = encodeFrameWith .little 0x00#8 address k crc data := rfl

section
variable {order : ByteOrder} {pad : Byte} {address : Word} {k : Nat} {crc : Half} {data : List Byte}

/-- A byte of the header. -/
theorem frameByte_header {i : Nat} (hi : i < 12) :
    frameByte (encodeFrameWith order pad address k crc data) i =
      (frameHeader order pad address k crc).getD i 0#8 := by
  rw [frameByte, encodeFrameWith_parts]
  exact List.getD_append _ _ _ _ (by simpa using hi)

/-- A byte of the data field. -/
theorem frameByte_data (hd : data.length = k) {i : Nat} (h1 : 12 ≤ i) (h2 : i < 12 + k) :
    frameByte (encodeFrameWith order pad address k crc data) i = data.getD (i - 12) 0#8 := by
  rw [frameByte, encodeFrameWith_parts, List.getD_append_right _ _ _ _ (by simpa using h1),
    frameHeader_length, List.getD_append _ _ _ _ (by simp; omega), List.getD_append _ _ _ _ (by omega)]

/-- A byte of the padding of the data field. -/
theorem frameByte_zero (hd : data.length = k) {i : Nat} (h1 : 12 + k ≤ i) (h2 : i < 212) :
    frameByte (encodeFrameWith order pad address k crc data) i = 0x00#8 := by
  rw [frameByte, encodeFrameWith_parts, List.getD_append_right _ _ _ _ (by simp; omega),
    frameHeader_length, List.getD_append _ _ _ _ (by simp; omega),
    List.getD_append_right _ _ _ _ (by omega)]
  rw [List.getD_eq_getElem _ _ (by simp; omega)]
  simp

/-- A byte of the trailer. -/
theorem frameByte_trailer (hd : data.length = k) (hk : k ≤ 200) {i : Nat} (h1 : 212 ≤ i) :
    frameByte (encodeFrameWith order pad address k crc data) i = (frameTrailer pad).getD (i - 212) 0#8 := by
  have hl : (data ++ List.replicate (200 - k) 0x00#8).length = 200 := by simp; omega
  rw [frameByte, encodeFrameWith_parts, List.getD_append_right _ _ _ _ (by simp; omega),
    frameHeader_length, List.getD_append_right _ _ _ _ (by omega), hl, Nat.sub_sub]

/-- `data_length` as the receiver reads it. -/
@[simp] theorem frameLength_encodeFrameWith (hk : k ≤ 200) :
    frameLength (encodeFrameWith order pad address k crc data) = k := by
  rw [frameLength, frameByte_header (by omega)]
  have : (frameHeader order pad address k crc).getD 8 0#8 = BitVec.ofNat 8 k := by cases order <;> rfl
  rw [this]
  simp; omega

/-- The payload as the receiver reads it is the data the frame was made of. -/
theorem framePayload_encodeFrameWith (hd : data.length = k) (hk : k ≤ 200) :
    framePayload (encodeFrameWith order pad address k crc data) = data := by
  rw [framePayload, frameLength_encodeFrameWith hk, encodeFrameWith_parts,
    List.drop_append_of_le_length (by simp),
    List.drop_of_length_le (by simp), List.nil_append, List.append_assoc,
    List.take_append_of_le_length (by omega), List.take_of_length_le (by omega)]

end

/-- `address` as the receiver reads it. -/
theorem frameAddress_encodeFrame (address : Word) (k : Nat) (crc : Half) (data : List Byte) :
    frameAddress (encodeFrame address k crc data) = address := by
  have h : frameAddress (encodeFrame address k crc data) =
      address.extractLsb' 24 8 ++ address.extractLsb' 16 8 ++ address.extractLsb' 8 8
        ++ address.extractLsb' 0 8 := rfl
  rw [h]
  rw [BitVec.extractLsb'_append_extractLsb'_eq_extractLsb' (by rfl),
    BitVec.extractLsb'_append_extractLsb'_eq_extractLsb' (by rfl),
    BitVec.extractLsb'_append_extractLsb'_eq_extractLsb' (by rfl)]
  simp

/-- `data_crc16` as the receiver reads it. -/
theorem frameCrc_encodeFrame (address : Word) (k : Nat) (crc : Half) (data : List Byte) :
    frameCrc (encodeFrame address k crc data) = crc := by
  have h : frameCrc (encodeFrame address k crc data) =
      crc.extractLsb' 8 8 ++ crc.extractLsb' 0 8 := rfl
  rw [h, BitVec.extractLsb'_append_extractLsb'_eq_extractLsb' (by rfl)]
  simp

end Sys2Proof.Machine
end

