-- ==== Sys2Proof/Laws/Image.lean ====
section
/-! SUPPORT. How the two CRCs and the image grow by a byte and by a frame. -/

namespace Sys2Proof.Machine

open Sys2Proof.Safety

theorem crc16_snoc (data : List Byte) (v : Byte) : crc16 (data ++ [v]) = crc16Step (crc16 data) v := by
  simp [crc16]

theorem crc32Feed_append (c : Word) (d e : List Byte) :
    crc32Feed c (d ++ e) = crc32Feed (crc32Feed c d) e := by
  simp [crc32Feed]

theorem crc32_eq_feed (data : List Byte) : crc32 data = crc32Feed 0xFFFFFFFF#32 data :=
  crc32Finalize_eq _

theorem crc32_append (d e : List Byte) : crc32 (d ++ e) = crc32Feed (crc32 d) e := by
  rw [crc32_eq_feed, crc32_eq_feed, crc32Feed_append]

theorem crc32_snoc (data : List Byte) (v : Byte) : crc32 (data ++ [v]) = crc32Step (crc32 data) v :=
  crc32_append data [v]

/-- Below its last value FILL counts up. -/
theorem fill_succ_val {f : Fin 200} (h : f.val < 199) : (f + 1).val = f.val + 1 := by
  rw [Fin.val_add]
  have : (1 : Fin 200).val = 1 := rfl
  omega

/-- The packet counter's step while it does not wrap. -/
theorem pktCount_succ_toNat {c : Word} (h : c.toNat + 1 < 2 ^ 32) : (c + 1#32).toNat = c.toNat + 1 := by
  rw [BitVec.toNat_add]
  exact Nat.mod_eq_of_lt h

/-- The frames since reset are as many as PKT_COUNT says. -/
theorem imageFrames_length {s : State} (h : s.pktCount.toNat ≤ s.tx.length) :
    (imageFrames s).length = s.pktCount.toNat := by
  rw [imageFrames, List.length_drop]; omega

/-- An emission adds its frame to the frames since reset. -/
theorem imageFrames_snoc {s t : State} {f : Frame} (h : s.pktCount.toNat ≤ s.tx.length)
    (ht : t.tx = s.tx ++ [f]) (hp : t.pktCount.toNat = s.pktCount.toNat + 1) :
    imageFrames t = imageFrames s ++ [f] := by
  rw [imageFrames, imageFrames, ht, hp,
    show (s.tx ++ [f]).length - (s.pktCount.toNat + 1) = s.tx.length - s.pktCount.toNat by simp,
    List.drop_append_of_le_length (by omega)]

/-- An emission adds its frame to the frames of its region. -/
theorem regionFrames_snoc {s t : State} {f : Frame} (h : s.idx ≤ s.tx.length)
    (ht : t.tx = s.tx ++ [f]) (hp : t.idx = s.idx + 1) :
    regionFrames t = regionFrames s ++ [f] := by
  rw [regionFrames, regionFrames, ht, hp,
    show (s.tx ++ [f]).length - (s.idx + 1) = s.tx.length - s.idx by simp,
    List.drop_append_of_le_length (by omega)]

/-- A frame that passes the receiver's check carries at least eight bytes. -/
theorem frameOk_length_ge {f : Frame} (h : FrameOk f) : 8 ≤ frameLength f := by
  have := h.lengthPos
  have := h.lengthMod
  omega

/-- The bytes of well-formed frames are at least eight times their number. -/
theorem sum_frameLength_ge {fs : List Frame} (h : ∀ f ∈ fs, FrameOk f) :
    8 * fs.length ≤ (fs.map frameLength).sum := by
  induction fs with
  | nil => simp
  | cons f fs ih =>
    have h1 := frameOk_length_ge (h f (by simp))
    have h2 := ih fun g hg => h g (by simp [hg])
    simp only [List.length_cons, List.map_cons, List.sum_cons]
    omega

/-- The payloads of well-formed frames have the lengths the frames say. -/
theorem framePayload_length {f : Frame} (h : FrameOk f) : (framePayload f).length = frameLength f := by
  have := h.size
  have := h.lengthMax
  rw [framePayload, List.length_take, List.length_drop]
  omega

/-- The states of a run never wrap PKT_COUNT: every frame counted added at least eight to LENGTH (R31). -/
theorem inv_pktCount_bound {s : State} (h : Inv s) : s.pktCount.toNat + 1 < 2 ^ 32 := by
  have h1 := sum_frameLength_ge (fs := imageFrames s) fun f hf =>
    h.framesOk f (List.mem_of_mem_drop hf)
  rw [imageFrames_length h.pktCountTx, ← h.lengthSum] at h1
  have := s.length.isLt
  omega

end Sys2Proof.Machine
end

