-- ==== Sys2Proof/Laws/PerInstr.lean ====
section
/-! SUPPORT. The encoding of every command against its row of the match and mask table
(30_encoding.md section 2): `word & mask == match`. -/

namespace Sys2Proof.Laws.EncodeMatch

/-- The command's word selects the command's row of the table. -/
def Statement (i : Instr) : Prop := encode i &&& i.mask = i.matchWord

theorem nop : Statement .nop := by unfold Statement; decide

theorem rst : Statement .rst := by unfold Statement; decide

theorem rgn (base : Word) : Statement (.rgn base) := by
  show (0x10#8 ++ base) &&& ((0xFF#8 ++ 0x00000000#32 : CmdWord)) = (0x10#8 ++ 0#32 : CmdWord)
  rw [word_and]; simp

theorem dat (v : Byte) : Statement (.dat v) := by
  show (0x11#8 ++ v.setWidth 32) &&& ((0xFF#8 ++ 0xFFFFFF00#32 : CmdWord)) = (0x11#8 ++ 0#32 : CmdWord)
  rw [word_and, show v.setWidth 32 &&& 0xFFFFFF00#32 = 0#32 by revert v; decide]; simp

theorem endRgn : Statement .endRgn := by unfold Statement; decide

theorem fin (append : Bool) : Statement (.fin append) := by cases append <;> (unfold Statement; decide)

theorem chk (value : Word) : Statement (.chk value) := by
  show (0x21#8 ++ value) &&& ((0xFF#8 ++ 0x00000000#32 : CmdWord)) = (0x21#8 ++ 0#32 : CmdWord)
  rw [word_and]; simp

theorem rd (reg : Byte) : Statement (.rd reg) := by
  show (0x30#8 ++ reg.setWidth 32) &&& ((0xFF#8 ++ 0xFFFFFF00#32 : CmdWord)) = (0x30#8 ++ 0#32 : CmdWord)
  rw [word_and, show reg.setWidth 32 &&& 0xFFFFFF00#32 = 0#32 by revert reg; decide]; simp

end Sys2Proof.Laws.EncodeMatch
end

