-- ==== Sys2Proof/Tests/Slice0.lean ====
section
/-! SUPPORT. Tests of single steps against the vectors of 95_test_vectors.md and the encodings of
30_encoding.md, and for every statement with hypotheses a witness that meets them, clause by clause, at
the boundaries of their ranges. -/

namespace Sys2Proof.Tests

open Sys2Proof.Machine Sys2Proof.Safety

/-! ### Small states -/

/-- What `exec` answers, as a state. -/
def after (i : Instr) (s : State) : State :=
  match exec i s with
  | .next t => t
  | _ => s

/-- What `step` answers, as a state. -/
def afterStep (s : State) : State :=
  match step s with
  | .next t => t
  | _ => s

/-- A state with one word presented and nothing after it. -/
def presenting (w : CmdWord) (s : State) : State := { s with inputs := [.command w] }

/-- A faulted state: F_SEQ from the opcode 0x10, with a region open. -/
def faulted : State := { State.reset with phase := .regionOpen, fault := 2#8, finfo := 0x10#32 }

/-- An open region with `fill` zero bytes in its chunk. -/
def opened (base : Word) (idx : Nat) (fill : Fin 200) (length : Word) : State :=
  { State.reset with
    phase := .regionOpen, base := base, idx := idx, fill := fill, length := length,
    crc16 := crc16 (List.replicate fill.val 0x00#8) }

/-- A finalised image with this CRC32_OUT. -/
def finished (out : Word) : State := { State.reset with phase := .done, crc32Out := out }

/-- `RGN 0` and eight zero bytes after reset, END next: the CRCs are those of 95_test_vectors.md sections
2.1 and 2.2. -/
def tailReady : State :=
  { State.reset with
    phase := .regionOpen, fill := 8, crc16 := 0x313E#16, crc32Run := 0x6904BB59#32,
    inputs := [.command 0x1200000000#40] }

/-- A step from `s`, which is unfaulted, raises the fault with this code. -/
def Raised (s : State) (code : BitVec 8) : Prop :=
  s.fault = 0#8 ∧ step s = .next (afterStep s) ∧ (afterStep s).fault = code ∧ code ≠ 0#8

/-! ### Well-formedness and decoding -/

theorem test_wellFormed_refuses_register_10 : (Instr.rd 10#8).wellFormed = false := by decide

theorem test_wellFormed_refuses_register_255 : (Instr.rd 255#8).wellFormed = false := by decide

theorem test_wellFormed_takes_register_9 : (Instr.rd 9#8).wellFormed = true := by decide

/-- Opcode 0x00 and thirty-two zeros (R81, R82). -/
theorem test_decode_nop : decode 0b0000000000000000000000000000000000000000#40 = .ok .nop := by rfl

/-- Opcode 0x01 and thirty-two zeros. -/
theorem test_decode_rst : decode 0b0000000100000000000000000000000000000000#40 = .ok .rst := by rfl

/-- Opcode 0x10 and the 32-bit base. -/
theorem test_decode_rgn :
    decode 0b0001000010000000000000000000000000000001#40 = .ok (.rgn 0x80000001#32) := by rfl

/-- Opcode 0x11, twenty-four zeros, the byte. -/
theorem test_decode_dat : decode 0b0001000100000000000000000000000011000001#40 = .ok (.dat 0xC1#8) := by rfl

/-- Opcode 0x12 and thirty-two zeros. -/
theorem test_decode_endRgn : decode 0b0001001000000000000000000000000000000000#40 = .ok .endRgn := by rfl

/-- Opcode 0x20, thirty-one zeros, the append bit. -/
theorem test_decode_fin : decode 0b0010000000000000000000000000000000000001#40 = .ok (.fin true) := by rfl

/-- Opcode 0x21 and the 32-bit value. -/
theorem test_decode_chk :
    decode 0b0010000111000000000000000000000000000010#40 = .ok (.chk 0xC0000002#32) := by rfl

/-- Opcode 0x30, twenty-four zeros, the register index. -/
theorem test_decode_rd : decode 0b0011000000000000000000000000000000000110#40 = .ok (.rd 6#8) := by rfl

/-- The illegal words of 95_test_vectors.md section 2.5. -/
theorem test_decode_refuses :
    (decode 0x0000000001#40).toOption = none ∧ (decode 0x0100000001#40).toOption = none ∧
    (decode 0x0200000000#40).toOption = none ∧ (decode 0x1100000100#40).toOption = none ∧
    (decode 0x1200000001#40).toOption = none ∧ (decode 0x2000000002#40).toOption = none ∧
    (decode 0x300000000A#40).toOption = none ∧ (decode 0xFF00000000#40).toOption = none := by decide

theorem test_encode_chk : encode (.chk 0xA19A6E15#32) = 0x21A19A6E15#40 := by decide

theorem test_decodeTableWord :
    decodeTableWord 40 0x1100000031 = some (.dat 0x31#8) ∧ decodeTableWord 8 0 = some .nop ∧
    decodeTableWord 48 0x010000000000 = none := by decide

/-- The word that `withFetchWord` presents is the next one executed. -/
theorem test_withFetchWord : (afterStep (State.reset.withFetchWord 40 0x1008000000)).base = 0x08000000#32 := by
  decide

/-! ### The two CRCs and the frame -/

/-- 95_test_vectors.md section 2.1. -/
theorem test_crc16_steps :
    crc16Step 0x1234#16 0x56#8 = 0x3C40#16 ∧ crc16Step 0x0000#16 0x80#8 = 0x9188#16 := by decide

/-- 95_test_vectors.md section 2.2. -/
theorem test_crc32_steps :
    crc32Step 0x12345678#32 0x9A#8 = 0x7B527556#32 ∧ crc32Step 0x00000000#32 0x80#8 = 0x690CE0EE#32 := by
  decide +kernel

/-- 95_test_vectors.md section 2.3, the third frame. -/
theorem test_frame_third_vector :
    encodeFrame 0x00000000#32 8 0x313E#16 (List.replicate 8 0x00#8) =
      [0x2A#8, 0x75#8, 0x00#8, 0x00#8, 0x00#8, 0x00#8, 0x00#8, 0x00#8, 0x08#8, 0x00#8, 0x3E#8, 0x31#8]
        ++ List.replicate 200 0x00#8 ++ [0x0A#8, 0x00#8, 0x00#8, 0x00#8] := by
  decide +kernel

/-- 95_test_vectors.md section 2.3, the header of the second frame. -/
theorem test_frame_second_header :
    (encodeFrame 0xFFFFFF38#32 200 0x0A22#16 (List.replicate 200 0xAA#8)).take 13 =
      [0x2A#8, 0x75#8, 0x00#8, 0x00#8, 0x38#8, 0xFF#8, 0xFF#8, 0xFF#8, 0xC8#8, 0x00#8, 0x22#8, 0x0A#8,
       0xAA#8] := by
  decide +kernel

/-! ### The commands (95_test_vectors.md sections 2.4 to 2.6) -/

theorem test_nop_while_faulted : after .nop faulted = faulted := by decide

theorem test_rst_leaves_fault : after .rst faulted = State.reset := by decide

theorem test_rgn_opens : status (after (.rgn 0x08000000#32) State.reset) = 0x00000001#32 := by decide

theorem test_rgn_in_open :
    status (after (.rgn 8#32) (opened 0#32 0 0 0#32)) = 0x00000201#32 ∧
    (after (.rgn 8#32) (opened 0#32 0 0 0#32)).finfo = 0x10#32 ∧
    (after (.rgn 8#32) (opened 0#32 0 0 0#32)).base = 0#32 := by
  decide

/-- The first byte "1" of an image. -/
theorem test_dat_first_byte :
    (after (.dat 0x31#8) (opened 0#32 0 0 0#32)).crc16 = 0xC782#16 ∧
    (after (.dat 0x31#8) (opened 0#32 0 0 0#32)).crc32Run = 0x9EFBCF93#32 ∧
    (after (.dat 0x31#8) (opened 0#32 0 0 0#32)).buf = [(0, 0x31#8)] := by
  decide +kernel

/-- The 200th of 200 zero bytes: the frame at once, with `data_crc16` 0x7A8F. -/
theorem test_dat_200th_byte :
    ((after (.dat 0x00#8) (opened 0xFFFFFF38#32 0 199 0#32)).tx.map fun f => f.take 12) =
      [[0x2A#8, 0x75#8, 0x00#8, 0x00#8, 0x38#8, 0xFF#8, 0xFF#8, 0xFF#8, 0xC8#8, 0x00#8, 0x8F#8, 0x7A#8]] ∧
    (after (.dat 0x00#8) (opened 0xFFFFFF38#32 0 199 0#32)).length = 200#32 := by
  decide +kernel

/-- F_ALIGN (section 2.6). -/
theorem test_end_misaligned :
    status (after .endRgn (opened 0x100#32 0 9 0#32)) = 0x00000301#32 ∧
    (after .endRgn (opened 0x100#32 0 9 0#32)).finfo = 9#32 := by
  decide +kernel

/-- F_LEN_OVF and the last length that passes (section 2.6). -/
theorem test_end_length_limit :
    (after .endRgn (opened 0#32 0 8 0xFFFFFFF8#32)).fault = 5#8 ∧
    (after .endRgn (opened 0#32 0 8 0xFFFFFFF8#32)).finfo = 0xFFFFFFF8#32 ∧
    (after .endRgn (opened 0#32 0 8 0xFFFFFFF0#32)).length = 0xFFFFFFF8#32 := by
  decide +kernel

/-- FIN 1 of the empty image (section 2.5). -/
theorem test_fin_append_empty :
    status (after (.fin true) State.reset) = 0x00000006#32 ∧
    (after (.fin true) State.reset).crc32A = 0xFFFFFFFF#32 ∧
    (after (.fin true) State.reset).crc32Out = 0x00000000#32 := by
  decide +kernel

/-- Append mode after "123456789abcdef0": bytes 15 6E 9A A1 (section 2.2). -/
theorem test_fin_append_order :
    (after (.fin true) { State.reset with crc32Run := 0xA19A6E15#32 }).crc32Out = 0x6448516C#32 := by
  decide +kernel

/-- F_MISMATCH (section 2.6). -/
theorem test_chk_mismatch :
    status (after (.chk 0x12345678#32) (finished 0x6904BB59#32)) = 0x00000602#32 ∧
    (after (.chk 0x12345678#32) (finished 0x6904BB59#32)).finfo = 0x12345678#32 := by
  decide

theorem test_chk_match : after (.chk 0xA19A6E15#32) (finished 0xA19A6E15#32) = finished 0xA19A6E15#32 := by
  decide

/-- `RD 0` in the state of program 4. -/
theorem test_rd_status_while_faulted :
    (after (.rd 0#8) { opened 0x100#32 0 9 0#32 with fault := 3#8, finfo := 9#32 }).rsp = [0x00000301#32] := by
  decide +kernel

/-- `RD 6` at the top of the address space, program 6: the truncated 2^32. -/
theorem test_rd_addr_truncates : (after (.rd 6#8) (opened 0xFFFFFF38#32 1 0 0#32)).rsp = [0#32] := by decide

/-- An illegal word in IDLE is F_ILLEGAL and not F_SEQ (section 2.6, priority). -/
theorem test_illegal_before_sequence :
    status (afterStep (presenting 0x1100000100#40 State.reset)) = 0x00000100#32 ∧
    (afterStep (presenting 0x1100000100#40 State.reset)).finfo = 0x11#32 := by
  decide

/-! ### The command text -/

/-- Lines of programs 1 and 5, with the blanks and comments they have there. -/
theorem test_assemble_lines :
    assemble ("RGN 0x08000000        ; 1008000000\n\nBYTES 0 0 ; two\n".toList ++
        "RD CRC32_OUT          ; 3000000004\nCHK 0xA19A6E15".toList) =
      some [0x1008000000#40, 0x1100000000#40, 0x1100000000#40, 0x3000000004#40, 0x21A19A6E15#40] := by
  decide +kernel

theorem test_assemble_refuses :
    assemble "RD 10".toList = none ∧ assemble "DAT 256".toList = none ∧ assemble "NOP 0".toList = none := by
  decide +kernel

/-- A text after the comma of REGION is refused (log entry 20), as is an index by an unknown name. -/
theorem test_assemble_model_choices :
    assemble "REGION 0x100, ASCII \"12\"".toList = none ∧ assemble "RD BASE".toList = none := by
  decide +kernel

/-! ### Witnesses: reset and decoding -/

theorem witness_RstFollowsItsRule :
    (1#32 : Word) ≠ 0#32 ∧ (0x80000000#32 : Word) ≠ 0#32 ∧
    (presenting (0x01#8 ++ 1#32) State.reset).inputs = .command (0x01#8 ++ 1#32) :: [] ∧
    (presenting (0x01#8 ++ 1#32) State.reset).fault = 0#8 ∧
    (presenting (0x01#8 ++ 1#32) faulted).inputs = .command (0x01#8 ++ 1#32) :: [] ∧
    (presenting (0x01#8 ++ 1#32) faulted).fault ≠ 0#8 ∧
    ({ faulted with inputs := [HostInput.reset] } : State).inputs = .reset :: [] := by
  decide

theorem witness_DecodeOfEncode :
    (Instr.rd 9#8).wellFormed = true ∧ (Instr.rd 0#8).wellFormed = true ∧
    (Instr.rgn 0xFFFFFFFF#32).wellFormed = true := by
  decide

theorem witness_EncodeOfDecode :
    decode 0x3000000009#40 = .ok (.rd 9#8) ∧ decode 0x11000000FF#40 = .ok (.dat 0xFF#8) := ⟨rfl, rfl⟩

/-- The word of a table row, and the first words past RD's limit and past DAT's operand. -/
theorem witness_LegalWordsAreTheTable :
    LegalWord 0x3000000009#40 ∧ ¬ LegalWord 0x300000000A#40 ∧ ¬ LegalWord 0x1100000100#40 := by
  unfold LegalWord
  decide

theorem witness_StepRunsDecodedCommand :
    decode 0x1008000000#40 = .ok (.rgn 0x08000000#32) ∧
    (presenting 0x1008000000#40 State.reset).inputs = .command 0x1008000000#40 :: [] := ⟨rfl, rfl⟩

/-- A reserved opcode in phase DONE. -/
theorem witness_IllegalWordRaisesIllegal :
    ¬ LegalWord 0x0200000000#40 ∧
    (presenting 0x0200000000#40 (finished 0#32)).fault = 0#8 ∧
    (presenting 0x0200000000#40 (finished 0#32)).inputs = .command 0x0200000000#40 :: [] := by
  unfold LegalWord
  decide

theorem witness_StepWithNoInputWaits : State.reset.inputs = [] ∧ faulted.inputs = [] := by decide

/-! ### Witnesses: the commands -/

/-- An operand that differs from 0 in one bit, at each end, unfaulted and faulted. -/
theorem witness_NopFollowsItsRule :
    (1#32 : Word) ≠ 0#32 ∧ (0x80000000#32 : Word) ≠ 0#32 ∧
    (presenting (0x00#8 ++ 1#32) State.reset).inputs = .command (0x00#8 ++ 1#32) :: [] ∧
    (presenting (0x00#8 ++ 1#32) State.reset).fault = 0#8 ∧
    (presenting (0x00#8 ++ 1#32) faulted).inputs = .command (0x00#8 ++ 1#32) :: [] ∧
    (presenting (0x00#8 ++ 1#32) faulted).fault ≠ 0#8 := by
  decide

theorem witness_RgnFollowsItsRule :
    faulted.fault ≠ 0#8 ∧
    ((opened 0#32 0 0 0#32).fault = 0#8 ∧ (opened 0#32 0 0 0#32).phase ≠ .idle) ∧
    ((finished 0#32).fault = 0#8 ∧ (finished 0#32).phase ≠ .idle) ∧
    (State.reset.fault = 0#8 ∧ State.reset.phase = .idle) := by
  decide

/-- The operand of the first reserved bit. Then each case: ignored; out of phase; the first and the last
byte that is only stored; the last address and the last length that pass; the address and the length each at
exactly 2^32. -/
theorem witness_DatFollowsItsRule :
    (0x100#32 : Word).extractLsb' 8 24 ≠ 0#24 ∧
    faulted.fault ≠ 0#8 ∧
    (State.reset.fault = 0#8 ∧ State.reset.phase ≠ .regionOpen) ∧
    ((opened 0#32 0 198 0#32).fault = 0#8 ∧ (opened 0#32 0 198 0#32).phase = .regionOpen ∧
      (opened 0#32 0 198 0#32).fill.val < 199 ∧ (opened 0#32 0 198 0#32).buf.wf = true) ∧
    (opened 0#32 0 0 0#32).fill.val < 199 ∧
    ((opened 0xFFFFFFFF#32 0 199 0xFFFFFF37#32).fault = 0#8 ∧
      (opened 0xFFFFFFFF#32 0 199 0xFFFFFF37#32).phase = .regionOpen ∧
      (opened 0xFFFFFFFF#32 0 199 0xFFFFFF37#32).fill.val = 199 ∧
      (opened 0xFFFFFFFF#32 0 199 0xFFFFFF37#32).base.toNat +
        (opened 0xFFFFFFFF#32 0 199 0xFFFFFF37#32).idx * 200 < 2 ^ 32 ∧
      (opened 0xFFFFFFFF#32 0 199 0xFFFFFF37#32).length.toNat + 200 < 2 ^ 32) ∧
    ((opened 0xFFFFFF38#32 1 199 0#32).fault = 0#8 ∧ (opened 0xFFFFFF38#32 1 199 0#32).phase = .regionOpen ∧
      (opened 0xFFFFFF38#32 1 199 0#32).fill.val = 199 ∧
      2 ^ 32 ≤ (opened 0xFFFFFF38#32 1 199 0#32).base.toNat + (opened 0xFFFFFF38#32 1 199 0#32).idx * 200) ∧
    ((opened 0#32 0 199 0xFFFFFF38#32).fill.val = 199 ∧
      (opened 0#32 0 199 0xFFFFFF38#32).base.toNat + (opened 0#32 0 199 0xFFFFFF38#32).idx * 200 < 2 ^ 32 ∧
      2 ^ 32 ≤ (opened 0#32 0 199 0xFFFFFF38#32).length.toNat + 200) := by
  decide

/-- Each of the three clauses at its limit. -/
theorem witness_EmitFollowsItsRule :
    2 ^ 32 ≤ (opened 0xFFFFFF38#32 1 0 0#32).base.toNat + (opened 0xFFFFFF38#32 1 0 0#32).idx * 200 ∧
    ((opened 0xFFFFFF37#32 1 0 0xFFFFFFF8#32).base.toNat +
        (opened 0xFFFFFF37#32 1 0 0xFFFFFFF8#32).idx * 200 < 2 ^ 32 ∧
      2 ^ 32 ≤ (opened 0xFFFFFF37#32 1 0 0xFFFFFFF8#32).length.toNat + 8) ∧
    ((opened 0xFFFFFF37#32 1 0 0xFFFFFFF7#32).base.toNat +
        (opened 0xFFFFFF37#32 1 0 0xFFFFFFF7#32).idx * 200 < 2 ^ 32 ∧
      (opened 0xFFFFFF37#32 1 0 0xFFFFFFF7#32).length.toNat + 8 < 2 ^ 32) := by
  decide

/-- The operand of one bit. Then each case: ignored; out of phase; no tail; the shortest and the longest
misaligned tail; the shortest tail and the longest one at the last address and length that pass; the address
and the length each at exactly 2^32. -/
theorem witness_EndFollowsItsRule :
    (1#32 : Word) ≠ 0#32 ∧
    faulted.fault ≠ 0#8 ∧
    (State.reset.fault = 0#8 ∧ State.reset.phase ≠ .regionOpen) ∧
    ((opened 0xFFFFFF38#32 1 0 200#32).fault = 0#8 ∧ (opened 0xFFFFFF38#32 1 0 200#32).phase = .regionOpen ∧
      (opened 0xFFFFFF38#32 1 0 200#32).fill.val = 0) ∧
    ((opened 0#32 0 1 0#32).fault = 0#8 ∧ (opened 0#32 0 1 0#32).phase = .regionOpen ∧
      (opened 0#32 0 1 0#32).fill.val % 8 ≠ 0 ∧ (opened 0#32 0 199 0#32).fill.val % 8 ≠ 0) ∧
    (tailReady.fault = 0#8 ∧ tailReady.phase = .regionOpen ∧ tailReady.fill.val ≠ 0 ∧
      tailReady.fill.val % 8 = 0 ∧ tailReady.base.toNat + tailReady.idx * 200 < 2 ^ 32 ∧
      tailReady.length.toNat + tailReady.fill.val < 2 ^ 32) ∧
    ((opened 0xFFFFFFFF#32 0 192 0xFFFFFF3F#32).fill.val % 8 = 0 ∧
      (opened 0xFFFFFFFF#32 0 192 0xFFFFFF3F#32).base.toNat +
        (opened 0xFFFFFFFF#32 0 192 0xFFFFFF3F#32).idx * 200 < 2 ^ 32 ∧
      (opened 0xFFFFFFFF#32 0 192 0xFFFFFF3F#32).length.toNat +
        (opened 0xFFFFFFFF#32 0 192 0xFFFFFF3F#32).fill.val < 2 ^ 32) ∧
    ((opened 0xFFFFFF38#32 1 8 0#32).fault = 0#8 ∧ (opened 0xFFFFFF38#32 1 8 0#32).phase = .regionOpen ∧
      (opened 0xFFFFFF38#32 1 8 0#32).fill.val ≠ 0 ∧ (opened 0xFFFFFF38#32 1 8 0#32).fill.val % 8 = 0 ∧
      2 ^ 32 ≤ (opened 0xFFFFFF38#32 1 8 0#32).base.toNat + (opened 0xFFFFFF38#32 1 8 0#32).idx * 200) ∧
    ((opened 0#32 0 8 0xFFFFFFF8#32).fill.val ≠ 0 ∧ (opened 0#32 0 8 0xFFFFFFF8#32).fill.val % 8 = 0 ∧
      (opened 0#32 0 8 0xFFFFFFF8#32).base.toNat + (opened 0#32 0 8 0xFFFFFFF8#32).idx * 200 < 2 ^ 32 ∧
      2 ^ 32 ≤ (opened 0#32 0 8 0xFFFFFFF8#32).length.toNat + (opened 0#32 0 8 0xFFFFFFF8#32).fill.val) := by
  decide

theorem witness_FinFollowsItsRule :
    (2#32 : Word).extractLsb' 1 31 ≠ 0#31 ∧
    faulted.fault ≠ 0#8 ∧
    ((finished 0#32).fault = 0#8 ∧ (finished 0#32).phase ≠ .idle) ∧
    ((opened 0#32 0 0 0#32).fault = 0#8 ∧ (opened 0#32 0 0 0#32).phase ≠ .idle) ∧
    (State.reset.fault = 0#8 ∧ State.reset.phase = .idle) := by
  decide

theorem witness_ChkFollowsItsRule :
    faulted.fault ≠ 0#8 ∧
    (State.reset.fault = 0#8 ∧ State.reset.phase ≠ .done) ∧
    ((finished 0#32).fault = 0#8 ∧ (finished 0#32).phase = .done ∧ (1#32 : Word) ≠ (finished 0#32).crc32Out) ∧
    (0#32 : Word) = (finished 0#32).crc32Out := by
  decide

/-- The last defined index and the two ends of the reserved ones. -/
theorem witness_RdFollowsItsRule :
    (9#8 : Byte).toNat ≤ 9 ∧ (0#8 : Byte).toNat ≤ 9 ∧
    (0x100#32 : Word).extractLsb' 8 24 ≠ 0#24 ∧
    9 < ((10#32 : Word).extractLsb' 0 8).toNat ∧
    9 < (10#8 : Byte).toNat ∧ 9 < (255#8 : Byte).toNat ∧ State.reset.fault = 0#8 ∧ faulted.fault ≠ 0#8 := by
  decide

theorem witness_RegisterFileAsRead :
    9 < (10#8 : Byte).toNat ∧ 9 < (255#8 : Byte).toNat ∧ State.reset.fault = 0#8 := by
  decide

theorem witness_RdTwiceAnswersTheSame : (9#8 : Byte).toNat ≤ 9 ∧ (0#8 : Byte).toNat ≤ 9 := by decide

/-! ### Witnesses: frames -/

theorem witness_NonStoringCommandsFrame :
    exec .nop faulted = .next (after .nop faulted) ∧
    exec (.chk 1#32) (finished 0#32) = .next (after (.chk 1#32) (finished 0#32)) ∧
    exec (.rd 9#8) faulted = .next (after (.rd 9#8) faulted) ∧
    exec (.rgn 8#32) State.reset = .next (after (.rgn 8#32) State.reset) ∧
    exec (.fin true) State.reset = .next (after (.fin true) State.reset) := ⟨rfl, rfl, rfl, rfl, rfl⟩

/-- END and DAT, each without an emission and with one. -/
theorem witness_StoringCommandsFrame :
    (exec .endRgn (opened 0#32 0 0 0#32) = .next (after .endRgn (opened 0#32 0 0 0#32)) ∧
      (opened 0#32 0 0 0#32).buf.wf = true ∧
      (after .endRgn (opened 0#32 0 0 0#32)).tx = (opened 0#32 0 0 0#32).tx) ∧
    (exec (.dat 7#8) (opened 0#32 0 198 0#32) = .next (after (.dat 7#8) (opened 0#32 0 198 0#32)) ∧
      (after (.dat 7#8) (opened 0#32 0 198 0#32)).tx = (opened 0#32 0 198 0#32).tx) ∧
    (exec (.dat 7#8) (opened 0#32 0 199 0#32) = .next (after (.dat 7#8) (opened 0#32 0 199 0#32)) ∧
      (after (.dat 7#8) (opened 0#32 0 199 0#32)).tx ≠ (opened 0#32 0 199 0#32).tx) ∧
    (exec .endRgn tailReady = .next (after .endRgn tailReady) ∧ tailReady.buf.wf = true ∧
      (after .endRgn tailReady).tx ≠ tailReady.tx) :=
  ⟨⟨rfl, by decide, by decide +kernel⟩, ⟨rfl, by decide +kernel⟩, ⟨rfl, by decide +kernel⟩,
    ⟨rfl, by decide, by decide +kernel⟩⟩

/-- For each clause a command that does change the register. -/
theorem witness_RegistersChangeOnlyByTheirWriters :
    exec (.dat 7#8) (opened 0#32 0 0 0#32) = .next (after (.dat 7#8) (opened 0#32 0 0 0#32)) ∧
    (after (.dat 7#8) (opened 0#32 0 0 0#32)).crc16 ≠ (opened 0#32 0 0 0#32).crc16 ∧
    (after (.dat 7#8) (opened 0#32 0 0 0#32)).crc32Run ≠ (opened 0#32 0 0 0#32).crc32Run ∧
    (after (.dat 7#8) (opened 0#32 0 0 0#32)).fill ≠ (opened 0#32 0 0 0#32).fill ∧
    exec (.fin true) State.reset = .next (after (.fin true) State.reset) ∧
    (after (.fin true) State.reset).crc32A ≠ State.reset.crc32A ∧
    (after (.fin true) State.reset).append ≠ State.reset.append ∧
    (after (.fin false) State.reset).crc32Out ≠ State.reset.crc32Out ∧
    exec (.rgn 8#32) State.reset = .next (after (.rgn 8#32) State.reset) ∧
    (after (.rgn 8#32) State.reset).base ≠ State.reset.base ∧
    exec .endRgn tailReady = .next (after .endRgn tailReady) ∧
    (after .endRgn tailReady).idx ≠ tailReady.idx ∧
    (after .endRgn tailReady).length ≠ tailReady.length ∧
    (after .endRgn tailReady).pktCount ≠ tailReady.pktCount :=
  ⟨rfl, by decide +kernel, by decide +kernel, by decide +kernel, rfl, by decide +kernel, by decide +kernel,
    by decide +kernel, rfl, by decide +kernel, rfl, by decide +kernel, by decide +kernel, by decide +kernel⟩

/-! ### Witnesses: faults -/

theorem witness_FaultsArePrecise :
    step (presenting 0x1100000031#40 State.reset) = .next (afterStep (presenting 0x1100000031#40 State.reset)) ∧
    (afterStep (presenting 0x1100000031#40 State.reset)).fault ≠
      (presenting 0x1100000031#40 State.reset).fault ∧
    (afterStep (presenting 0x1100000031#40 State.reset)).fault ≠ 0#8 :=
  ⟨rfl, by decide, by decide⟩

/-- Each command that has a phase, in another; and a command that raises F_SEQ. -/
theorem witness_OutOfPhaseRaisesSeq :
    (phaseNeeded (.rgn 0#32) = some .idle ∧ (finished 0#32).phase ≠ .idle ∧ (finished 0#32).fault = 0#8) ∧
    (phaseNeeded (.dat 0#8) = some .regionOpen ∧ State.reset.phase ≠ .regionOpen ∧ State.reset.fault = 0#8) ∧
    (phaseNeeded .endRgn = some .regionOpen ∧ (finished 0#32).phase ≠ .regionOpen) ∧
    (phaseNeeded (.fin true) = some .idle ∧ (opened 0#32 0 0 0#32).phase ≠ .idle ∧
      (opened 0#32 0 0 0#32).fault = 0#8) ∧
    (phaseNeeded (.chk 0#32) = some .done ∧ (opened 0#32 0 0 0#32).phase ≠ .done) ∧
    (exec .endRgn State.reset = .next (after .endRgn State.reset) ∧ State.reset.fault = 0#8 ∧
      (after .endRgn State.reset).fault = 2#8) :=
  ⟨by decide, by decide, by decide, by decide, by decide, rfl, by decide, by decide⟩

/-- One step for each of the six rows. -/
theorem witness_FaultTableIsExhaustive :
    Raised (presenting 0x0200000000#40 State.reset) 1#8 ∧
    Raised (presenting 0x1200000000#40 State.reset) 2#8 ∧
    Raised (presenting 0x1200000000#40 (opened 0#32 0 9 0#32)) 3#8 ∧
    Raised (presenting 0x1200000000#40 (opened 0xFFFFFF38#32 1 8 0#32)) 4#8 ∧
    Raised (presenting 0x1100000000#40 (opened 0#32 0 199 0xFFFFFF38#32)) 5#8 ∧
    Raised (presenting 0x2100000001#40 (finished 0#32)) 6#8 :=
  ⟨⟨rfl, rfl, by decide +kernel, by decide⟩, ⟨rfl, rfl, by decide +kernel, by decide⟩,
    ⟨rfl, rfl, by decide +kernel, by decide⟩, ⟨rfl, rfl, by decide +kernel, by decide⟩,
    ⟨rfl, rfl, by decide +kernel, by decide⟩, ⟨rfl, rfl, by decide +kernel, by decide⟩⟩

/-- RST, RD, a command that is ignored, and an illegal RST. -/
theorem witness_FaultedStateExecutesRstAndRdOnly :
    (presenting 0x0100000000#40 faulted).fault ≠ 0#8 ∧
    (presenting 0x0100000000#40 faulted).inputs = .command 0x0100000000#40 :: [] ∧
    decode 0x0100000000#40 = .ok .rst ∧
    decode 0x3000000009#40 = .ok (.rd 9#8) ∧
    ((decode 0x1100000000#40).toOption ≠ some .rst ∧
      ∀ reg, (decode 0x1100000000#40).toOption ≠ some (.rd reg)) ∧
    (decode 0x0100000001#40).toOption = none :=
  ⟨by decide, rfl, rfl, rfl, ⟨by decide, fun _ h => nomatch h⟩, by decide⟩

/-- A faulted state with a command that is ignored, with RST, and with the hardware reset. -/
theorem witness_FirstFaultIsKeptUntilReset :
    step (presenting 0x2000000000#40 faulted) = .next (afterStep (presenting 0x2000000000#40 faulted)) ∧
    (presenting 0x2000000000#40 faulted).fault ≠ 0#8 ∧
    step (presenting 0x0100000000#40 faulted) = .next (afterStep (presenting 0x0100000000#40 faulted)) ∧
    (afterStep (presenting 0x0100000000#40 faulted)).fault = 0#8 ∧
    step { faulted with inputs := [.reset] } = .next (afterStep { faulted with inputs := [.reset] }) :=
  ⟨rfl, by decide, rfl, by decide, rfl⟩

/-- A faulted state with an illegal word; then for each check a state where every later check would fail
too. -/
theorem witness_ChecksAreMadeInOrder :
    ((presenting 0x0200000000#40 faulted).fault ≠ 0#8 ∧
      step (presenting 0x0200000000#40 faulted) = .next (afterStep (presenting 0x0200000000#40 faulted))) ∧
    (State.reset.fault = 0#8 ∧ decode 0x1200000001#40 = .error (.reservedBits 0x12#8) ∧
      (presenting 0x1200000001#40 State.reset).inputs = .command 0x1200000001#40 :: []) ∧
    (phaseNeeded .endRgn = some .regionOpen ∧ State.reset.phase ≠ .regionOpen) ∧
    ((opened 0xFFFFFFFF#32 1 9 0xFFFFFFFF#32).fault = 0#8 ∧
      (opened 0xFFFFFFFF#32 1 9 0xFFFFFFFF#32).phase = .regionOpen ∧
      (opened 0xFFFFFFFF#32 1 9 0xFFFFFFFF#32).fill.val % 8 ≠ 0) ∧
    ((opened 0xFFFFFFFF#32 1 8 0xFFFFFFFF#32).fill.val ≠ 0 ∧
      (opened 0xFFFFFFFF#32 1 8 0xFFFFFFFF#32).fill.val % 8 = 0 ∧
      2 ^ 32 ≤ (opened 0xFFFFFFFF#32 1 8 0xFFFFFFFF#32).base.toNat +
        (opened 0xFFFFFFFF#32 1 8 0xFFFFFFFF#32).idx * 200) ∧
    ((opened 0xFFFFFFFF#32 0 199 0xFFFFFFFF#32).fill.val = 199 ∧
      (opened 0xFFFFFFFF#32 0 199 0xFFFFFFFF#32).base.toNat +
        (opened 0xFFFFFFFF#32 0 199 0xFFFFFFFF#32).idx * 200 < 2 ^ 32 ∧
      2 ^ 32 ≤ (opened 0xFFFFFFFF#32 0 199 0xFFFFFFFF#32).length.toNat +
        (if Instr.dat 0#8 = .endRgn then (opened 0xFFFFFFFF#32 0 199 0xFFFFFFFF#32).fill.val else 200)) ∧
    ((finished 1#32).fault = 0#8 ∧ (finished 1#32).phase = .done ∧ (0#32 : Word) ≠ (finished 1#32).crc32Out) :=
  ⟨⟨by decide, rfl⟩, ⟨by decide, rfl, rfl⟩, by decide, by decide, by decide, by decide, by decide⟩

/-! ### Witnesses: whole-machine rules -/

/-- The four transitions. -/
theorem witness_PhaseTransitions :
    (exec .rst faulted = .next (after .rst faulted) ∧ (after .rst faulted).phase ≠ faulted.phase) ∧
    (exec (.rgn 8#32) State.reset = .next (after (.rgn 8#32) State.reset) ∧
      (after (.rgn 8#32) State.reset).phase ≠ State.reset.phase) ∧
    (exec .endRgn tailReady = .next (after .endRgn tailReady) ∧
      (after .endRgn tailReady).phase ≠ tailReady.phase) ∧
    (exec (.fin false) State.reset = .next (after (.fin false) State.reset) ∧
      (after (.fin false) State.reset).phase ≠ State.reset.phase) :=
  ⟨⟨rfl, by decide⟩, ⟨rfl, by decide⟩, ⟨rfl, by decide +kernel⟩, ⟨rfl, by decide⟩⟩

theorem witness_DoneFreezesResults :
    exec (.rgn 0#32) (finished 7#32) = .next (after (.rgn 0#32) (finished 7#32)) ∧
    (finished 7#32).phase = .done ∧ Instr.rgn 0#32 ≠ .rst ∧ (finished 7#32).fault = 0#8 ∧
    phaseNeeded (.rgn 0#32) = some .idle ∧ phaseNeeded (.dat 0#8) = some .regionOpen :=
  ⟨rfl, by decide, by decide, by decide, by decide, by decide⟩

/-- A step that emits, and one that resets. -/
theorem witness_TxAndTotalsMoveTogether :
    step tailReady = .next (afterStep tailReady) ∧ (afterStep tailReady).tx.length = 1 ∧
    step { tailReady with inputs := [.reset] } = .next (afterStep { tailReady with inputs := [.reset] }) :=
  ⟨rfl, by decide +kernel, rfl⟩

/-- A step that takes a legal RD, and one that takes another word. -/
theorem witness_RspGrowsOnlyByRd :
    step (presenting 0x3000000004#40 (finished 7#32)) =
      .next (afterStep (presenting 0x3000000004#40 (finished 7#32))) ∧
    (afterStep (presenting 0x3000000004#40 (finished 7#32))).rsp = [7#32] ∧
    step (presenting 0x300000000A#40 (finished 7#32)) =
      .next (afterStep (presenting 0x300000000A#40 (finished 7#32))) ∧
    (afterStep (presenting 0x300000000A#40 (finished 7#32))).rsp = [] :=
  ⟨rfl, by decide, rfl, by decide⟩

theorem witness_TxStreamIsFramesInOffsetOrder :
    (∀ f ∈ ({ State.reset with tx := [List.replicate 216 1#8, List.replicate 216 2#8] } : State).tx,
      f.length = 216) ∧ 215 < 216 := by
  decide +kernel

/-- The empty and the full data field. -/
theorem witness_FrameFieldsAtTheirOffsets :
    (([] : List Byte).length = 0 ∧ 0 ≤ 200) ∧ ((List.replicate 200 7#8 : List Byte).length = 200 ∧ 200 ≤ 200) := by
  decide +kernel

theorem witness_FrameUnderEveryConvention :
    (([] : List Byte).length = 0 ∧ 0 ≤ 200) ∧ ((List.replicate 200 7#8 : List Byte).length = 200 ∧ 200 ≤ 200) ∧
    ByteOrder.little ≠ .big := by
  decide +kernel

/-! ### Witnesses: the invariant -/

/-- The invariant holds in a state reached by nine commands and about to emit. -/
theorem witness_inv_tailReady : Inv tailReady where
  bufWf := rfl
  fillClosed := fun h => absurd rfl h
  bufZero := fun _ _ => rfl
  crc16Chunk := by decide +kernel
  crc32Image := fun _ => by decide +kernel
  pktCountTx := by decide
  lengthSum := by decide
  framesOk := fun _ h => nomatch h
  idxOk := .inl rfl
  idxPkt := by decide
  addresses := fun _ h => absurd h (Nat.not_lt_zero _)
  doneA := fun h => nomatch h
  doneOut := fun h => nomatch h
  doneRun := fun h => nomatch h
  beforeDone := fun _ => ⟨rfl, rfl, rfl⟩
  faultCode := by decide
  noFaultInfo := fun _ => rfl

/-- The invariant holds in an idle, unfaulted state with nothing emitted. -/
theorem witness_inv_idle : Inv { opened 5#32 0 0 0#32 with phase := .idle } where
  bufWf := rfl
  fillClosed := fun _ => rfl
  bufZero := fun _ _ => rfl
  crc16Chunk := rfl
  crc32Image := fun _ => by decide
  pktCountTx := by decide
  lengthSum := by decide
  framesOk := fun _ h => nomatch h
  idxOk := .inl rfl
  idxPkt := by decide
  addresses := fun _ h => absurd h (Nat.not_lt_zero _)
  doneA := fun h => nomatch h
  doneOut := fun h => nomatch h
  doneRun := fun h => nomatch h
  beforeDone := fun _ => ⟨rfl, rfl, rfl⟩
  faultCode := by decide
  noFaultInfo := fun _ => rfl

theorem witness_EmittedFramesAreWellFormed :
    Inv tailReady ∧ step tailReady = .next (afterStep tailReady) ∧
    (afterStep tailReady).tx = tailReady.tx ++ [encodeFrame 0#32 8 0x313E#16 (List.replicate 8 0x00#8)] :=
  ⟨witness_inv_tailReady, rfl, by decide +kernel⟩

theorem witness_StepKeepsInvariant :
    Inv tailReady ∧ step tailReady = .next (afterStep tailReady) := ⟨witness_inv_tailReady, rfl⟩

/-- A buffer that lists a byte, and a step that stores another. -/
theorem witness_StepKeepsBufferCanonical :
    ({ presenting 0x1100000031#40 (opened 0#32 0 1 0#32) with buf := [(0, 0x30#8)] } : State).buf.wf = true ∧
    step { presenting 0x1100000031#40 (opened 0#32 0 1 0#32) with buf := [(0, 0x30#8)] } =
      .next (afterStep { presenting 0x1100000031#40 (opened 0#32 0 1 0#32) with buf := [(0, 0x30#8)] }) :=
  ⟨by decide, rfl⟩

/-- The last emission that R137 allows, and the next chunk, which faults. -/
theorem witness_IdxStaysBounded :
    IdxOk (presenting 0x1100000031#40 (opened 0#32 21474836 199 0#32)) ∧
    step (presenting 0x1100000031#40 (opened 0#32 21474836 199 0#32)) =
      .next (afterStep (presenting 0x1100000031#40 (opened 0#32 21474836 199 0#32))) ∧
    (afterStep (presenting 0x1100000031#40 (opened 0#32 21474836 199 0#32))).idx = 21474837 ∧
    IdxOk (presenting 0x1100000031#40 (opened 0#32 21474837 199 0#32)) ∧
    (afterStep (presenting 0x1100000031#40 (opened 0#32 21474837 199 0#32))).fault = 4#8 :=
  ⟨.inr (by decide), rfl, by decide +kernel, .inr (by decide), by decide +kernel⟩

/-- RST, a byte that is taken, a byte that faults, and a command that is no DAT. -/
theorem witness_ImageIsTheDatBytes :
    Inv tailReady ∧ exec .rst tailReady = .next (after .rst tailReady) ∧
    exec (.dat 1#8) tailReady = .next (after (.dat 1#8) tailReady) ∧
    (after (.dat 1#8) tailReady).fault = 0#8 ∧
    Inv { opened 5#32 0 0 0#32 with phase := .idle } ∧
    exec (.dat 1#8) { opened 5#32 0 0 0#32 with phase := .idle } =
      .next (after (.dat 1#8) { opened 5#32 0 0 0#32 with phase := .idle }) ∧
    (after (.dat 1#8) { opened 5#32 0 0 0#32 with phase := .idle }).fault ≠ 0#8 ∧
    exec .endRgn tailReady = .next (after .endRgn tailReady) :=
  ⟨witness_inv_tailReady, rfl, rfl, by decide +kernel, witness_inv_idle, rfl, by decide, rfl⟩

theorem witness_FinCapturesImageCrc :
    Inv { opened 5#32 0 0 0#32 with phase := .idle } ∧
    ({ opened 5#32 0 0 0#32 with phase := .idle } : State).fault = 0#8 ∧
    ({ opened 5#32 0 0 0#32 with phase := .idle } : State).phase = .idle :=
  ⟨witness_inv_idle, rfl, rfl⟩

/-- The two ends of the address space. -/
theorem witness_AddressEntersNoCrc :
    exec .endRgn tailReady = .next (after .endRgn tailReady) ∧
    exec .endRgn { tailReady with base := 0xFFFFFFFF#32 } =
      .next (after .endRgn { tailReady with base := 0xFFFFFFFF#32 }) ∧
    (after .endRgn tailReady).fault = 0#8 ∧
    (after .endRgn { tailReady with base := 0xFFFFFFFF#32 }).fault = 0#8 :=
  ⟨rfl, rfl, by decide +kernel, by decide +kernel⟩

/-! ### Witnesses: regions, images, command text -/

/-- One chunk that ends at 2^32, and no chunk at all. -/
theorem witness_WholeChunkRegionPacketizes :
    (State.reset.buf.wf = true ∧ State.reset.fault = 0#8 ∧ State.reset.phase = .idle) ∧
    ((List.replicate 200 7#8 : List Byte).length = 1 * 200 ∧
      (0xFFFFFF38#32 : Word).toNat + (List.replicate 200 7#8 : List Byte).length ≤ 2 ^ 32 ∧
      State.reset.length.toNat + (List.replicate 200 7#8 : List Byte).length < 2 ^ 32) ∧
    ([] : List Byte).length = 0 * 200 := by
  decide +kernel

/-- The source's instance (one chunk and eight bytes), and a lone tail of 192 bytes. -/
theorem witness_TailRegionPacketizes :
    (State.reset.buf.wf = true ∧ State.reset.fault = 0#8 ∧ State.reset.phase = .idle) ∧
    ((List.replicate 208 7#8 : List Byte).length = 1 * 200 + 8 ∧ 0 < 8 ∧ 8 < 200 ∧ 8 % 8 = 0 ∧
      (0xFFFFFF30#32 : Word).toNat + (List.replicate 208 7#8 : List Byte).length ≤ 2 ^ 32 ∧
      State.reset.length.toNat + (List.replicate 208 7#8 : List Byte).length < 2 ^ 32) ∧
    ((List.replicate 192 7#8 : List Byte).length = 0 * 200 + 192 ∧ 0 < 192 ∧ 192 < 200 ∧ 192 % 8 = 0) := by
  decide +kernel

theorem witness_StreamingRefinesBatch :
    (State.reset.buf.wf = true ∧ State.reset.fault = 0#8 ∧ State.reset.phase = .idle) ∧
    ((List.replicate 208 7#8 : List Byte).length % 8 = 0 ∧
      (0xFFFFFF30#32 : Word).toNat + (List.replicate 208 7#8 : List Byte).length ≤ 2 ^ 32 ∧
      State.reset.length.toNat + (List.replicate 208 7#8 : List Byte).length < 2 ^ 32) ∧
    ([] : List Byte).length % 8 = 0 := by
  decide +kernel

/-- Two regions, one of them ending at 2^32. -/
theorem witness_LegalImageIsProduced :
    (∀ r ∈ ([(0x100#32, List.replicate 8 1#8), (0xFFFFFF38#32, List.replicate 200 2#8)] :
        List (Word × List Byte)), r.2.length % 8 = 0 ∧ r.1.toNat + r.2.length ≤ 2 ^ 32) ∧
    ((([(0x100#32, List.replicate 8 1#8), (0xFFFFFF38#32, List.replicate 200 2#8)] :
        List (Word × List Byte)).map fun r => r.2.length).sum < 2 ^ 32) := by
  decide +kernel

/-- The first operand that is refused by R82, and the first that does not fit. -/
theorem witness_AssembledWordIsOpcodeAndOperand :
    asmWord 0x30#8 9 = some 0x3000000009#40 ∧ asmWord 0x30#8 10 = none ∧
    asmWord 0x10#8 (2 ^ 32 - 1) = some 0x10FFFFFFFF#40 ∧ asmWord 0x10#8 (2 ^ 32) = none := by
  decide

theorem witness_AssemblerGivesLegalWords : assemble "NOP".toList = some [0x0000000000#40] := by
  decide +kernel

/-- Nothing, a blank of each kind, a comment, and a blank before a comment. -/
theorem witness_lineEnd :
    LineEnd [] ∧ LineEnd [' ', '\t', '\r'] ∧ LineEnd [';', 'a'] ∧ LineEnd [' ', ';'] :=
  ⟨⟨[], [], rfl, by simp, .inl rfl⟩, ⟨[' ', '\t', '\r'], [], rfl, by simp [asmBlank], .inl rfl⟩,
    ⟨[], [';', 'a'], rfl, by simp, .inr ⟨['a'], rfl, by simp⟩⟩,
    ⟨[' '], [';'], rfl, by simp [asmBlank], .inr ⟨[], rfl, by simp⟩⟩⟩

/-- The empty text and one with the blank and the comment sign; a blank and a comment after it. -/
theorem witness_AsciiExpandsToItsCharacters :
    (∀ c ∈ ([] : List Char), c.toNat < 128 ∧ c.toNat ≠ 34 ∧ c ≠ '\n') ∧
    (∀ c ∈ ['1', ' ', ';', 'z'], c.toNat < 128 ∧ c.toNat ≠ 34 ∧ c ≠ '\n') ∧ LineEnd [' ', ';'] :=
  ⟨by simp, by simp, witness_lineEnd.2.2.2⟩

/-- The byte 0xFF and the base 0xFFFFFFFF in both bases, and a comment. -/
theorem witness_PseudoInstructionsExpand :
    ([255#8, 255#8] ≠ [] ∧
      ["255".toList, "0xFF".toList].map asmNumber = [255#8, 255#8].map (fun v : Byte => some v.toNat) ∧
      asmNumber "4294967295".toList = some (0xFFFFFFFF#32 : Word).toNat ∧
      asmNumber "0xffffffff".toList = some (0xFFFFFFFF#32 : Word).toNat) ∧ LineEnd [' ', ';'] :=
  ⟨by decide +kernel, witness_lineEnd.2.2.2⟩

/-- No comment and a comment after a blank; a number that is legal for every command that takes one, and the
first that is legal for none. -/
theorem witness_CommandLinesAssembleToTheirWords :
    LineEnd [] ∧ LineEnd [' ', ';'] ∧
    asmNumber "1".toList = some 1 ∧ asmNumber "0x100000000".toList = some (2 ^ 32) :=
  ⟨witness_lineEnd.1, witness_lineEnd.2.2.2, by decide +kernel, by decide +kernel⟩

/-- The spec's spellings of the base of program 1, after its leading zero, and of its check value; zero. -/
theorem witness_NumbersAreReadInBothBases :
    "8000000".toList.map Char.toLower = Nat.toDigits 16 0x8000000 ∧
    "A19A6E15".toList.map Char.toLower = Nat.toDigits 16 0xA19A6E15 ∧
    "0".toList.map Char.toLower = Nat.toDigits 16 0 := by
  decide +kernel

/-- The empty line and a command. -/
theorem witness_LinesAssembleOneAfterAnother : '\n' ∉ ([] : List Char) ∧ '\n' ∉ "NOP".toList := by
  decide

end Sys2Proof.Tests
end

/-! PROOFS. The statements of 00_scope.md: what one step does with the command word at the head of the port. -/

namespace Sys2Proof.Proofs

open Sys2Proof Sys2Proof.Machine

/-- Presenting a word and taking it from the port are inverse. -/
@[simp] theorem takeInput_present (w : CmdWord) (s : State) : takeInput s.inputs (present w s) = s := rfl

/-- A presented word that decodes is executed on the state it was presented to. -/
theorem step_present {s : State} {w : CmdWord} {i : Instr} (hd : decode w = .ok i) :
    step (present w s) = exec i s := by
  rw [step_command (present_inputs w s) hd, takeInput_present]

/-- `withFetchWord` with all 40 bits of a command word presents that word. -/
@[simp] theorem withFetchWord_toNat (s : State) (w : CmdWord) : s.withFetchWord 40 w.toNat = present w s := by
  rw [State.withFetchWord, tableWord_toNat]

/-- Settles O7: `step_command` for a word at the head of the port, `step_present` for the word of
`withFetchWord`. -/
theorem stepRunsDecodedCommand : Obligations.StepRunsDecodedCommand := by
  intro s w i hd
  refine ⟨fun rest hi => step_command hi hd, ?_⟩
  rw [withFetchWord_toNat, step_present hd]

end Sys2Proof.Proofs

/-! PROOFS. The statements of 10_state.md: the registers and who writes them, the ports, and the invariant of
every command boundary with the image it speaks of. -/

namespace Sys2Proof.Proofs

open Sys2Proof Sys2Proof.Machine Sys2Proof.Safety

/-! ### Which words decode -/

theorem decodeBare_eq_ok {op : Byte} {arg : Word} {i j : Instr} (h : decodeBare op arg i = .ok j) :
    arg = 0#32 ∧ j = i := by
  unfold decodeBare at h
  split at h
  · next h0 => cases h; exact ⟨h0, rfl⟩
  · cases h

/-- What the decoder answers is a well-formed command with that opcode and that operand. -/
theorem decodeFields_eq_ok {op : Byte} {arg : Word} {i : Instr} (h : decodeFields op arg = .ok i) :
    i.wellFormed = true ∧ op = i.opcode ∧ arg = i.operand := by
  unfold decodeFields at h
  split_ifs at h with hnop hrst hrgn hdat hz hend hfin hz hchk hrd hz hr
  · obtain ⟨rfl, rfl⟩ := decodeBare_eq_ok h; exact ⟨rfl, hnop, rfl⟩
  · obtain ⟨rfl, rfl⟩ := decodeBare_eq_ok h; exact ⟨rfl, hrst, rfl⟩
  · cases h; exact ⟨rfl, hrgn, rfl⟩
  · cases h; exact ⟨rfl, hdat, word_of_byte hz⟩
  · obtain ⟨rfl, rfl⟩ := decodeBare_eq_ok h; exact ⟨rfl, hend, rfl⟩
  · cases h; exact ⟨rfl, hfin, word_of_bit hz⟩
  · cases h; exact ⟨rfl, hchk, rfl⟩
  · cases h; exact ⟨decide_eq_true hr, hrd, word_of_byte hz⟩

theorem decode_encode {i : Instr} (hi : i.wellFormed = true) : decode (encode i) = .ok i := by
  rw [encode, decode_append]
  cases i with
  | nop | rst | rgn | endRgn | chk => rfl
  | fin append => cases append <;> rfl
  | dat v =>
    obtain ⟨hz, hv⟩ := byte_in_word v
    refine (decodeFields_dat (v.setWidth 32)).trans ?_
    rw [if_pos hz, hv]
  | rd reg =>
    obtain ⟨hz, hv⟩ := byte_in_word reg
    refine (decodeFields_rd (reg.setWidth 32)).trans ?_
    rw [if_pos hz, hv, if_pos (of_decide_eq_true hi)]

/-- The words that decode are the encodings of the well-formed commands (R80 to R82). -/
theorem decode_eq_ok_iff {w : CmdWord} {i : Instr} :
    decode w = .ok i ↔ i.wellFormed = true ∧ w = encode i := by
  constructor
  · intro h
    obtain ⟨hi, hop, harg⟩ := decodeFields_eq_ok h
    exact ⟨hi, by rw [encode, ← hop, ← harg, opcode_append_operand]⟩
  · rintro ⟨hi, rfl⟩
    exact decode_encode hi

/-! ### Reset -/

/-- A reset writes every value of R39's table. -/
theorem resetValues_resetBlock (s : State) : ResetValues (resetBlock s) := by
  constructor <;> intros <;> rfl

/-- Settles O1: the reset state is the block after a reset. -/
theorem resetStateHoldsTableValues : Obligations.ResetStateHoldsTableValues :=
  resetValues_resetBlock State.reset

/-! ### The register file -/

/-- STATUS bit by bit (R34). -/
theorem status_getLsbD (s : State) {i : Nat} (hi : i < 32) :
    (status s).getLsbD i =
      if 8 ≤ i then s.fault.getLsbD (i - 8)
      else if i = 2 then s.append else if i = 1 then doneFlag s else if i = 0 then openFlag s else false := by
  by_cases h8 : 8 ≤ i
  · have h2 : i - 2 ≠ 0 := by omega
    have h1 : i - 1 ≠ 0 := by omega
    have h0 : i ≠ 0 := by omega
    simp [status, hi, h8, h2, h1, h0]
  · rw [if_neg h8]
    interval_cases i <;> simp [status]

theorem status_fault (s : State) : (status s).extractLsb' 8 8 = s.fault := by
  refine BitVec.eq_of_getLsbD_eq fun i hi => ?_
  rw [BitVec.getLsbD_extractLsb', status_getLsbD s (by omega), if_pos (by omega), Nat.add_sub_cancel_left,
    decide_eq_true hi, Bool.true_and]

theorem status_zero_below_fault (s : State) : (status s).extractLsb' 3 5 = 0#5 := by
  refine BitVec.eq_of_getLsbD_eq fun i hi => ?_
  rw [BitVec.getLsbD_extractLsb', status_getLsbD s (by omega), if_neg (by omega), if_neg (by omega),
    if_neg (by omega), if_neg (by omega), Bool.and_false, BitVec.getLsbD_zero]

theorem status_zero_above_fault (s : State) : (status s).extractLsb' 16 16 = 0#16 := by
  refine BitVec.eq_of_getLsbD_eq fun i hi => ?_
  rw [BitVec.getLsbD_extractLsb', status_getLsbD s (by omega), if_pos (by omega),
    BitVec.getLsbD_of_ge _ _ (by omega), Bool.and_false, BitVec.getLsbD_zero]

/-- ADDR, which the model truncates by its width, is the packet address modulo 2^32 (R35). -/
theorem addrRegister_eq_mod (s : State) :
    addrRegister s = BitVec.ofNat 32 ((s.base.toNat + s.idx * 200) % 2 ^ 32) :=
  BitVec.eq_of_toNat_eq (by simp [addrRegister, packetAddress])

theorem exec_rd {s : State} {reg : Byte} {v : Word} (h : readRegister s reg = some v) :
    exec (.rd reg) s = .next { s with rsp := s.rsp ++ [v] } := execRd_eq h

/-- RD of a reserved index is an illegal word (R152). -/
theorem exec_rd_reserved {s : State} {reg : Byte} (h : 9 < reg.toNat) (hf : s.fault = 0#8) :
    exec (.rd reg) s = .next { s with fault := 1#8, finfo := 0x30#32 } := by
  show execRd reg s = _
  rw [execRd, readRegister_reserved h]
  exact rejectWord_unfaulted hf

/-- Settles O18: each register's value by `readRegister`, STATUS field by field from `status_getLsbD`. -/
theorem registerFileAsRead : Obligations.RegisterFileAsRead := by
  intro s
  refine ⟨⟨status s, exec_rd rfl, ?_, ?_, status_getLsbD s (by decide), status_zero_below_fault s,
    status_fault s, status_zero_above_fault s⟩, exec_rd rfl, exec_rd rfl, exec_rd rfl, exec_rd rfl,
    exec_rd rfl, exec_rd (congrArg some (addrRegister_eq_mod s)), exec_rd rfl, exec_rd rfl, exec_rd rfl,
    fun _ => exec_rd_reserved⟩
  · rw [status_getLsbD s (by decide)]; simp [openFlag]
  · rw [status_getLsbD s (by decide)]; simp [doneFlag]

/-! ### What a command may change -/

/-- Settles O23: in each case of what a command did, the elements that differ and its name. -/
theorem registersChangeOnlyByTheirWriters : Obligations.RegistersChangeOnlyByTheirWriters := by
  intro i s t h hi
  cases exec_cases h with
  | ignored | nop | raised | chk | rd => simp
  | rst => exact absurd rfl hi
  | rgn => simp [afterRgn]
  | stored => simp
  | chunk => simp [afterChunk]
  | closed => simp
  | tail => simp [afterTail]
  | fin append => cases append <;> simp [afterFin, finRun]

/-- Settles O30: RST, RGN, END and FIN have the four transitions, and in every other case PHASE stays. -/
theorem phaseTransitions : Obligations.PhaseTransitions := by
  intro i s t h hne
  cases exec_cases h with
  | ignored | nop | raised | stored | chunk | chk | rd => exact absurd rfl hne
  | rst => exact .inl ⟨rfl, rfl⟩
  | rgn base _ hp => exact .inr (.inl ⟨⟨base, rfl⟩, hp, rfl⟩)
  | closed _ hp | tail _ hp => exact .inr (.inr (.inl ⟨rfl, hp, rfl⟩))
  | fin append _ hp => exact .inr (.inr (.inr ⟨⟨append, rfl⟩, hp, rfl⟩))

/-! ### The ports -/

/-- An emission that passes the length check adds its frame's length to LENGTH (R24). -/
theorem sendFrame_length_toNat {s : State} {k : Nat} (hk : k ≤ 200) (hl : s.length.toNat + k < 2 ^ 32)
    (crc : Half) (data : List Byte) :
    (sendFrame (nextFrame k crc data s) k s).length.toNat =
      s.length.toNat + frameLength (nextFrame k crc data s) := by
  rw [sendFrame_length, BitVec.toNat_ofNat, Nat.mod_eq_of_lt hl, nextFrame, encodeFrame_eq,
    frameLength_encodeFrameWith hk]

/-- Settles O32: DAT's 200th byte and END's tail emit, a reset resets, and nothing else moves TX or the
totals. -/
theorem txAndTotalsMoveTogether : Obligations.TxAndTotalsMoveTogether := by
  intro s t hstep
  cases step_cases hstep with
  | waits | ignored | illegal => exact .inl ⟨rfl, .inl ⟨rfl, rfl⟩⟩
  | hardwareReset => exact .inl ⟨rfl, .inr (resetValues_resetBlock _)⟩
  | executes _ _ _ _ _ _ _ hc =>
    cases hc with
    | ignored | nop | raised | rgn | stored | closed | fin | chk | rd => exact .inl ⟨rfl, .inl ⟨rfl, rfl⟩⟩
    | rst => exact .inl ⟨rfl, .inr (resetValues_resetBlock _)⟩
    | chunk _ _ _ _ _ hl => exact .inr ⟨_, rfl, sendFrame_length_toNat (le_refl 200) hl _ _, rfl⟩
    | tail _ _ _ _ _ hl => exact .inr ⟨_, rfl, sendFrame_length_toNat Fin.is_le' hl _ _, rfl⟩

/-- A command puts a word on RSP exactly if it is a legal RD, and then the register's value (R37, R61). -/
theorem rsp_of_execCase {s t : State} {i : Instr} (hc : ExecCase s i t) :
    (∃ (reg : Byte) (v : Word), reg.toNat ≤ 9 ∧ i = .rd reg ∧ readRegister s reg = some v ∧
      t.rsp = s.rsp ++ [v]) ∨
    (t.rsp = s.rsp ∧ ∀ reg : Byte, reg.toNat ≤ 9 → i ≠ .rd reg) := by
  cases hc with
  | rd reg v hr hv => exact .inl ⟨reg, v, hr, rfl, hv, rfl⟩
  | ignored _ _ hi => exact .inr ⟨rfl, hi⟩
  | raised f _ _ _ hf =>
    refine .inr ⟨rfl, ?_⟩
    rintro reg hr rfl
    cases hf with
    | reserved _ h9 => omega
    | seq p hp => cases hp
  | nop | rst | rgn | stored | chunk | closed | tail | fin | chk => exact .inr ⟨rfl, fun _ _ => nofun⟩

/-- A word on the port that does not decode to RD of a register is not the encoding of it. -/
theorem head?_ne_encode_rd {s : State} {w : CmdWord} {rest : List HostInput}
    (hi : s.inputs = .command w :: rest) {reg : Byte} (hr : reg.toNat ≤ 9) (hd : decode w ≠ .ok (.rd reg)) :
    s.inputs.head? ≠ some (.command (encode (.rd reg))) := by
  intro hh
  rw [hi] at hh
  cases hh
  exact hd (decode_encode (decide_eq_true hr))

/-- Settles O33: an RD that answers is one whose word was the encoding of it (`decode_eq_ok_iff`). -/
theorem rspGrowsOnlyByRd : Obligations.RspGrowsOnlyByRd := by
  intro s t hstep
  cases step_cases hstep with
  | waits hi => exact .inr ⟨rfl, fun _ _ => by simp [hi]⟩
  | hardwareReset _ hi => exact .inr ⟨rfl, fun _ _ => by simp [hi]⟩
  | ignored w e _ hi hd | illegal w e _ hi hd =>
    exact .inr ⟨rfl, fun _ hr => head?_ne_encode_rd hi hr (by simp [hd])⟩
  | executes w i _ _ hi hd _ hc =>
    rcases rsp_of_execCase hc with ⟨reg, v, hr, rfl, hv, ht⟩ | ⟨ht, hne⟩
    · obtain ⟨-, rfl⟩ := decode_eq_ok_iff.1 hd
      exact .inl ⟨reg, v, hr, by rw [hi, List.head?_cons], hv, ht⟩
    · exact .inr ⟨ht, fun reg hr => head?_ne_encode_rd hi hr (by simpa [hd] using hne reg hr)⟩

/-! ### The chunk buffer -/

/-- Settles O44: DAT writes BUF inside its 200 bytes, and every other writer of BUF clears it. -/
theorem stepKeepsBufferCanonical : Obligations.StepKeepsBufferCanonical := by
  intro s t hm hstep
  cases step_cases hstep with
  | waits | ignored | illegal => exact hm
  | hardwareReset => rfl
  | executes _ _ _ _ _ _ _ hc =>
    cases hc with
    | ignored | nop | raised | rgn | closed | fin | chk | rd => exact hm
    | rst | chunk | tail => rfl
    | stored v => exact Memory.wf_write hm s.fill.isLt v

/-! ### The image of each effect -/

/-- With no byte of a chunk received the image is what has been emitted. -/
theorem imageBytes_of_no_chunk {s : State} (h0 : s.fill.val = 0) : imageBytes s = emittedBytes s := by
  simp [imageBytes, h0]

theorem imageFrames_resetBlock (s : State) : imageFrames (resetBlock s) = [] := by simp [imageFrames]

theorem imageBytes_resetBlock (s : State) : imageBytes (resetBlock s) = [] := by
  rw [imageBytes_of_no_chunk rfl, emittedBytes, imageFrames_resetBlock, List.flatMap_nil]

/-- RGN leaves the image as it was: it found no open chunk and leaves none. -/
theorem imageBytes_afterRgn (base : Word) {s : State} (h0 : s.fill.val = 0) :
    imageBytes (afterRgn base s) = imageBytes s := by
  rw [imageBytes_of_no_chunk h0, imageBytes_of_no_chunk (s := afterRgn base s) rfl]
  rfl

/-- A byte that does not complete its chunk is the image's next byte. -/
theorem imageBytes_storeByte {s : State} {v : Byte} (hm : s.buf.wf = true) (hl : s.fill.val < 199) :
    imageBytes (storeByte v s) = imageBytes s ++ [v] := by
  rw [imageBytes, storeByte_fill, fill_succ_val hl, storeByte_buf, Memory.slice_write hm, imageBytes,
    List.append_assoc]
  rfl

/-- After a reset the invariant holds again if the frames already sent are well-formed (R39, R192). -/
theorem inv_resetBlock {s : State} (hf : ∀ f ∈ s.tx, FrameOk f) : Inv (resetBlock s) where
  bufWf := rfl
  fillClosed _ := rfl
  bufZero _ _ := rfl
  crc16Chunk := rfl
  crc32Image _ := by rw [imageBytes_resetBlock]; rfl
  pktCountTx := Nat.zero_le _
  lengthSum := by rw [imageFrames_resetBlock]; rfl
  framesOk := hf
  idxOk := .inl rfl
  idxPkt := Nat.zero_le _
  addresses _ hj := absurd hj (Nat.not_lt_zero _)
  doneA := nofun
  doneOut := nofun
  doneRun := nofun
  beforeDone _ := ⟨rfl, rfl, rfl⟩
  faultCode := Nat.zero_le _
  noFaultInfo _ := rfl

/-! ### An emitted frame -/

/-- A frame made of 1 to 200 bytes, a multiple of 8, and their CRC16 passes the receiver's check (R77). -/
theorem frameOk_encodeFrame (address : Word) {data : List Byte} (h1 : 1 ≤ data.length)
    (h2 : data.length ≤ 200) (h8 : data.length % 8 = 0) :
    FrameOk (encodeFrame address data.length (crc16 data) data) :=
  have hlen : frameLength (encodeFrame address data.length (crc16 data) data) = data.length :=
    frameLength_encodeFrameWith h2
  have hpay : framePayload (encodeFrame address data.length (crc16 data) data) = data :=
    framePayload_encodeFrameWith rfl h2
  have trailer : ∀ i, 212 ≤ i → frameByte (encodeFrame address data.length (crc16 data) data) i =
      (frameTrailer 0x00#8).getD (i - 212) 0#8 := fun _ => frameByte_trailer rfl h2
  { size := by
      have hpad : 12 + (data.length + (200 - data.length + 4)) = 216 := by omega
      rw [encodeFrame_eq, encodeFrameWith_parts]
      simpa using hpad
    boot := rfl
    update := rfl
    eop := trailer 212 (by decide)
    pads := by
      simp only [List.forall_mem_cons]
      exact ⟨rfl, rfl, rfl, trailer 213 (by decide), trailer 214 (by decide), trailer 215 (by decide), nofun⟩
    lengthPos := by rwa [hlen]
    lengthMax := by rwa [hlen]
    lengthMod := by rwa [hlen]
    zeroTail := fun i hi hle => frameByte_zero rfl (by rwa [hlen] at hle) hi
    crc := by
      rw [hpay]
      exact frameCrc_encodeFrame .. }

/-- The state after the emission of a frame that carries `data`, with the digest and the phase its command
leaves: what DAT's 200th byte (R126) and END's tail (R130) have in common. -/
def afterFrame (data : List Byte) (run : Word) (phase : Phase) (s : State) : State :=
  { sendFrame (nextFrame data.length (crc16 data) data s) data.length s with crc32Run := run, phase := phase }

section
variable {s : State} (h : Inv s)
include h

/-- Under the invariant the frame of DAT's 200th byte carries the 199 bytes of BUF and that byte. -/
theorem afterChunk_eq_afterFrame (h9 : s.fill.val = 199) (v : Byte) :
    afterChunk v s =
      afterFrame (s.buf.slice s.fill.val ++ [v]) (crc32Step s.crc32Run v) s.phase s := by
  have hcrc : crc16Step s.crc16 v = crc16 (s.buf.slice s.fill.val ++ [v]) := by
    rw [crc16_snoc, ← h.crc16Chunk]
  rw [afterChunk, hcrc]
  simp [afterFrame, h9]

/-- Under the invariant the frame of END carries the FILL bytes of BUF. -/
theorem afterTail_eq_afterFrame :
    afterTail s = afterFrame (s.buf.slice s.fill.val) s.crc32Run .idle s := by
  rw [afterTail, h.crc16Chunk]
  simp [afterFrame]

section
variable {data : List Byte} (run : Word) (phase : Phase)

theorem afterFrame_pktCount_toNat :
    (afterFrame data run phase s).pktCount.toNat = s.pktCount.toNat + 1 :=
  pktCount_succ_toNat (inv_pktCount_bound h)

theorem imageFrames_afterFrame :
    imageFrames (afterFrame data run phase s) =
      imageFrames s ++ [nextFrame data.length (crc16 data) data s] :=
  imageFrames_snoc h.pktCountTx rfl (afterFrame_pktCount_toNat h run phase)

theorem regionFrames_afterFrame :
    regionFrames (afterFrame data run phase s) =
      regionFrames s ++ [nextFrame data.length (crc16 data) data s] :=
  regionFrames_snoc (h.idxPkt.trans h.pktCountTx) rfl rfl

/-- An emission leaves the image that the frames before and the frame's data make. -/
theorem imageBytes_afterFrame (hd : data.length ≤ 200) :
    imageBytes (afterFrame data run phase s) = emittedBytes s ++ data := by
  have hpay : framePayload (nextFrame data.length (crc16 data) data s) = data :=
    framePayload_encodeFrameWith rfl hd
  have hbuf : (afterFrame data run phase s).buf.slice (afterFrame data run phase s).fill.val = [] := rfl
  rw [imageBytes, hbuf, emittedBytes, imageFrames_afterFrame h]
  simp [hpay, emittedBytes]

theorem regionFrames_length : (regionFrames s).length = s.idx := by
  have := h.idxPkt
  have := h.pktCountTx
  rw [regionFrames, List.length_drop]; omega

/-- An emission keeps the addresses of the region's frames: the new one is next in the row (R133). -/
theorem addresses_afterFrame {j : Nat} (hj : j < s.idx + 1) :
    frameAddress ((regionFrames (afterFrame data run phase s)).getD j []) =
      BitVec.ofNat 32 (s.base.toNat + j * 200) := by
  have hlen := regionFrames_length h
  rw [regionFrames_afterFrame h]
  rcases Nat.lt_succ_iff_lt_or_eq.1 hj with hlt | rfl
  · rw [List.getD_append _ _ _ _ (by omega)]
    exact h.addresses j hlt
  · rw [List.getD_append_right _ _ _ _ (by omega), hlen, Nat.sub_self, List.getD_cons_zero]
    exact frameAddress_encodeFrame ..

/-- An emission that leaves the digest of the image keeps the invariant. -/
theorem inv_afterFrame (hs : s.phase ≠ .done) (hphase : phase ≠ .done) (h1 : 1 ≤ data.length)
    (h2 : data.length ≤ 200) (h8 : data.length % 8 = 0) (ha : packetAddress s < 2 ^ 32)
    (hl : s.length.toNat + data.length < 2 ^ 32) (hrun : run = crc32 (emittedBytes s ++ data)) :
    Inv (afterFrame data run phase s) where
  bufWf := rfl
  fillClosed _ := rfl
  bufZero _ _ := rfl
  crc16Chunk := rfl
  crc32Image _ := by rw [imageBytes_afterFrame h run phase h2]; exact hrun
  pktCountTx := by
    rw [afterFrame_pktCount_toNat h]
    simpa [afterFrame] using h.pktCountTx
  lengthSum := by
    rw [imageFrames_afterFrame h, List.map_append, List.sum_append, ← h.lengthSum, List.map_singleton,
      List.sum_singleton]
    exact sendFrame_length_toNat h2 hl (crc16 data) data
  framesOk := by
    intro f hf
    rcases List.mem_append.1 hf with hf | hf
    · exact h.framesOk f hf
    · rw [List.mem_singleton.1 hf]
      exact frameOk_encodeFrame _ h1 h2 h8
  idxOk := .inr ha
  idxPkt := by
    rw [afterFrame_pktCount_toNat h]
    exact Nat.succ_le_succ h.idxPkt
  addresses _ hj := addresses_afterFrame h run phase hj
  doneA hd := absurd hd hphase
  doneOut hd := absurd hd hphase
  doneRun hd := absurd hd hphase
  beforeDone _ := h.beforeDone hs
  faultCode := h.faultCode
  noFaultInfo := h.noFaultInfo

end

/-! ### Every other effect keeps the invariant -/

theorem inv_takeInput (rest : List HostInput) : Inv (takeInput rest s) := { h with }

theorem inv_putResponse (v : Word) : Inv (putResponse v s) := { h with }

theorem inv_raiseFault (f : FaultReport) : Inv (raiseFault f s) :=
  { h with
    faultCode := faultCode_number_le f.code
    noFaultInfo := fun h0 => absurd h0 (faultCode_number_ne_zero f.code) }

/-- RGN keeps the invariant: no byte of a chunk is received while no region is open. -/
theorem inv_afterRgn (base : Word) (hp : s.phase = .idle) : Inv (afterRgn base s) :=
  have hs : s.phase ≠ .regionOpen ∧ s.phase ≠ .done := by simp [hp]
  have h0 : s.fill.val = 0 := h.fillClosed hs.1
  { h with
    fillClosed := fun _ => rfl
    bufZero := fun i _ => h.bufZero i (by omega)
    crc16Chunk := rfl
    crc32Image := fun _ => by
      rw [imageBytes_afterRgn base h0]
      exact h.crc32Image hs.2
    idxOk := .inl rfl
    idxPkt := Nat.zero_le _
    addresses := fun _ hj => absurd hj (Nat.not_lt_zero _)
    doneA := nofun
    doneOut := nofun
    doneRun := nofun
    beforeDone := fun _ => h.beforeDone hs.2 }

/-- A byte that does not complete its chunk keeps the invariant: BUF, U1 and U2 all take it. -/
theorem inv_storeByte (v : Byte) (hp : s.phase = .regionOpen) (hl : s.fill.val < 199) :
    Inv (storeByte v s) :=
  have hs : s.phase ≠ .done := by simp [hp]
  have hfill : (storeByte v s).fill.val = s.fill.val + 1 := fill_succ_val hl
  { h with
    bufWf := Memory.wf_write h.bufWf s.fill.isLt v
    fillClosed := fun ho => absurd hp ho
    bufZero := fun i hi => by
      rw [storeByte_buf, Memory.read_write h.bufWf, if_neg (by omega)]
      exact h.bufZero i (by omega)
    crc16Chunk := by
      rw [hfill, storeByte_buf, Memory.slice_write h.bufWf, crc16_snoc, ← h.crc16Chunk, storeByte_crc16]
    crc32Image := fun _ => by
      rw [imageBytes_storeByte h.bufWf hl, crc32_snoc, ← h.crc32Image hs, storeByte_crc32Run]
    doneRun := fun hd => absurd hd hs }

/-- FIN keeps the invariant: with no chunk open the running digest is that of the emitted bytes, and feeding
`crc_a` to it continues the digest (R114, R115). -/
theorem inv_afterFin (append : Bool) (hp : s.phase = .idle) : Inv (afterFin append s) :=
  have hs : s.phase ≠ .regionOpen ∧ s.phase ≠ .done := by simp [hp]
  have h0 : s.fill.val = 0 := h.fillClosed hs.1
  have hrun : s.crc32Run = crc32 (emittedBytes s) := by
    rw [← imageBytes_of_no_chunk h0]
    exact h.crc32Image hs.2
  { h with
    fillClosed := fun _ => h0
    crc32Image := fun hd => absurd rfl hd
    doneA := fun _ => hrun
    doneOut := fun _ => by
      show finRun append s = if append then crc32 (emittedBytes s ++ le32 s.crc32Run) else s.crc32Run
      rw [finRun, crc32_append, ← hrun]
    doneRun := fun _ => rfl
    beforeDone := fun hd => absurd rfl hd }

/-- END of a region with no open chunk keeps the invariant. -/
theorem inv_closed (hp : s.phase = .regionOpen) (h0 : s.fill.val = 0) :
    Inv { s with phase := .idle } :=
  have hs : s.phase ≠ .done := by simp [hp]
  { h with
    fillClosed := fun _ => h0
    crc32Image := fun _ => h.crc32Image hs
    doneA := nofun
    doneOut := nofun
    doneRun := nofun
    beforeDone := fun _ => h.beforeDone hs }

/-- The 200th byte of a chunk keeps the invariant. -/
theorem inv_afterChunk (v : Byte) (hp : s.phase = .regionOpen) (h9 : s.fill.val = 199)
    (ha : packetAddress s < 2 ^ 32) (hl : s.length.toNat + 200 < 2 ^ 32) : Inv (afterChunk v s) := by
  have hs : s.phase ≠ .done := by simp [hp]
  have hlen : (s.buf.slice s.fill.val ++ [v]).length = 200 := by simp [h9]
  rw [afterChunk_eq_afterFrame h h9]
  refine inv_afterFrame h _ _ hs hs (by omega) (by omega) (by omega) ha (by omega) ?_
  rw [← List.append_assoc, crc32_snoc, h.crc32Image hs, imageBytes]

/-- The tail frame of a region keeps the invariant. -/
theorem inv_afterTail (hp : s.phase = .regionOpen) (h0 : s.fill.val ≠ 0) (h8 : s.fill.val % 8 = 0)
    (ha : packetAddress s < 2 ^ 32) (hl : s.length.toNat + s.fill.val < 2 ^ 32) : Inv (afterTail s) := by
  have hs : s.phase ≠ .done := by simp [hp]
  have hlen : (s.buf.slice s.fill.val).length = s.fill.val := Memory.slice_length _ _
  rw [afterTail_eq_afterFrame h]
  refine inv_afterFrame h _ _ hs (by simp) ?_ ?_ ?_ ha ?_ (h.crc32Image hs) <;> omega

theorem inv_exec {i : Instr} {t : State} (hc : ExecCase s i t) : Inv t := by
  cases hc with
  | ignored | nop | chk => exact h
  | raised f => exact inv_raiseFault h f
  | rst => exact inv_resetBlock h.framesOk
  | rgn base _ hp => exact inv_afterRgn h base hp
  | stored v _ hp hl => exact inv_storeByte h v hp hl
  | chunk v _ hp h9 ha hl => exact inv_afterChunk h v hp h9 ha hl
  | closed _ hp h0 => exact inv_closed h hp h0
  | tail _ hp h0 h8 ha hl => exact inv_afterTail h hp h0 h8 ha hl
  | fin append _ hp => exact inv_afterFin h append hp
  | rd _ v => exact inv_putResponse h v

end

/-- Settles O43: one lemma for each thing a command can do, and one for each thing a step can do besides. -/
theorem stepKeepsInvariant : Obligations.StepKeepsInvariant := by
  intro s t h hstep
  cases step_cases hstep with
  | waits => exact h
  | hardwareReset => exact inv_resetBlock h.framesOk
  | ignored _ _ rest => exact inv_takeInput h rest
  | illegal _ _ rest => exact inv_raiseFault (inv_takeInput h rest) _
  | executes _ _ rest _ _ _ _ hc => exact inv_exec (inv_takeInput h rest) hc

/-- Settles O42: the reset state is the block after a reset with nothing emitted. -/
theorem invariantHoldsAtReset : Obligations.InvariantHoldsAtReset :=
  inv_resetBlock (s := State.reset) (by simp [State.reset])

/-! ### The image -/

/-- Settles O46: with the image of each effect, case by case of what the command did. -/
theorem imageIsTheDatBytes : Obligations.ImageIsTheDatBytes := by
  intro i s t h hexec
  have hc := exec_cases hexec
  refine ⟨?_, ?_, ?_⟩
  · rintro rfl
    cases hc with
    | ignored _ hi => exact absurd rfl hi
    | raised _ _ hi => exact absurd rfl hi
    | rst => exact imageBytes_resetBlock s
  · rintro v rfl hf
    cases hc with
    | ignored hf' => exact absurd hf hf'
    | raised f => exact absurd hf (faultCode_number_ne_zero f.code)
    | stored _ _ _ hl => exact imageBytes_storeByte h.bufWf hl
    | chunk _ _ _ h9 =>
      rw [afterChunk_eq_afterFrame h h9, imageBytes_afterFrame h _ _ (by simp [h9]), imageBytes,
        List.append_assoc]
  · intro hi hdat
    cases hc with
    | ignored | nop | chk | raised | rd | closed | fin => rfl
    | rst => exact absurd rfl hi
    | rgn base _ hp => exact imageBytes_afterRgn base (h.fillClosed (by simp [hp]))
    | stored v hf => exact absurd hf (hdat v rfl)
    | chunk v hf => exact absurd hf (hdat v rfl)
    | tail =>
      rw [afterTail_eq_afterFrame h, imageBytes_afterFrame h _ _ (by simp), imageBytes]

end Sys2Proof.Proofs

/-! PROOFS. The statements of 20_memory.md: what reading the register file leaves unchanged. -/

namespace Sys2Proof.Proofs

open Sys2Proof Sys2Proof.Machine

/-- No register is computed from RSP, so an answer given there changes no register (R62). -/
@[simp] theorem readRegister_putResponse (v : Word) (s : State) (reg : Byte) :
    readRegister (putResponse v s) reg = readRegister s reg := rfl

/-- Two answers put on RSP one after the other are appended in that order. -/
theorem putResponse_putResponse (v w : Word) (s : State) :
    putResponse w (putResponse v s) = { s with rsp := s.rsp ++ [v, w] } := by
  simp [putResponse]

/-- Settles O20: the second RD finds the register as the first one left it, by `readRegister_putResponse`. -/
theorem rdTwiceAnswersTheSame : Obligations.RdTwiceAnswersTheSame := by
  intro s reg hr
  obtain ⟨v, hv⟩ := readRegister_isSome (s := s) hr
  have hv' : readRegister (putResponse v s) reg = some v := by rw [readRegister_putResponse, hv]
  refine ⟨v, putResponse v s, exec_rd hv, rfl, ?_⟩
  rw [← putResponse_putResponse]
  exact exec_rd hv'

end Sys2Proof.Proofs

/-! PROOFS. The statements of 30_encoding.md: the command word, the illegal words, the frame and its order on the
TX port, and the command text. -/

namespace Sys2Proof.Proofs

open Sys2Proof Sys2Proof.Machine Sys2Proof.Safety

/-! ### The command word (section 2) -/

/-- Settles O4: `decode_encode`, operand by operand. -/
theorem decodeOfEncode : Obligations.DecodeOfEncode := fun _ => decode_encode

/-- Settles O5: the words that decode are the encodings of the well-formed commands. -/
theorem encodeOfDecode : Obligations.EncodeOfDecode := by
  intro w i hd
  obtain ⟨hi, hw⟩ := decode_eq_ok_iff.1 hd
  exact ⟨hi, hw.symm⟩

/-- Settles O3: the decoder evaluated at each word. -/
theorem tableWordsDecode : Obligations.TableWordsDecode :=
  ⟨rfl, rfl, rfl, rfl, rfl, rfl, rfl, rfl, rfl, rfl, rfl, rfl⟩

/-- A word matches a row, whose mask has every opcode bit and whose match has no operand bit, if it has the
row's opcode and its operand no bit of the mask. -/
theorem matches_row_iff {op rowOp : Byte} {arg mask : Word} :
    (op ++ arg : CmdWord) &&& (0xFF#8 ++ mask : CmdWord) = (rowOp ++ 0#32 : CmdWord) ↔
      op = rowOp ∧ arg &&& mask = 0#32 := by
  have hall : op &&& 0xFF#8 = op := BitVec.and_allOnes
  rw [word_and, word_inj, hall]

/-- An operand without a bit of a mask that is all ones from bit `k` on has only zeros there. -/
theorem extractLsb'_eq_zero_of_and_mask {arg : Word} (k : Nat) {mask : Word} (hm : mask = BitVec.allOnes 32 <<< k)
    (h : arg &&& mask = 0#32) : arg.extractLsb' k (32 - k) = 0#(32 - k) := by
  refine BitVec.eq_of_getLsbD_eq fun i hi => ?_
  have hlt : k + i < 32 := by omega
  have hmask : mask.getLsbD (k + i) = true := by
    rw [hm, BitVec.getLsbD_shiftLeft, Nat.add_sub_cancel_left, BitVec.getLsbD_allOnes]
    simp; omega
  have hbit : (arg &&& mask).getLsbD (k + i) = false := by rw [h, BitVec.getLsbD_zero]
  rw [BitVec.getLsbD_and, hmask, Bool.and_true] at hbit
  rw [BitVec.getLsbD_extractLsb', hbit, Bool.and_false, BitVec.getLsbD_zero]

/-- The low byte of a word is its operand's. -/
theorem lowByte_append (op : Byte) (arg : Word) :
    (op ++ arg : CmdWord).extractLsb' 0 8 = arg.extractLsb' 0 8 := by
  refine BitVec.eq_of_getLsbD_eq fun i hi => ?_
  rw [BitVec.getLsbD_extractLsb', BitVec.getLsbD_extractLsb', getLsbD_word, if_pos (by omega)]

/-- The encoding of a well-formed command is a word of the table (`EncodeMatch`, row by row). -/
theorem legalWord_encode {i : Instr} (hi : i.wellFormed = true) : LegalWord (encode i) := by
  cases i with
  | nop => exact .inl Laws.EncodeMatch.nop
  | rst => exact .inr (.inl Laws.EncodeMatch.rst)
  | rgn base => exact .inr (.inr (.inl (Laws.EncodeMatch.rgn base)))
  | dat v => exact .inr (.inr (.inr (.inl (Laws.EncodeMatch.dat v))))
  | endRgn => exact .inr (.inr (.inr (.inr (.inl Laws.EncodeMatch.endRgn))))
  | fin append => exact .inr (.inr (.inr (.inr (.inr (.inl (Laws.EncodeMatch.fin append))))))
  | chk value => exact .inr (.inr (.inr (.inr (.inr (.inr (.inl (Laws.EncodeMatch.chk value)))))))
  | rd reg =>
    have hreg : (encode (.rd reg)).extractLsb' 0 8 = reg := (lowByte_append _ _).trans (byte_in_word reg).2
    refine .inr (.inr (.inr (.inr (.inr (.inr (.inr ⟨Laws.EncodeMatch.rd reg, ?_⟩))))))
    rw [hreg]
    exact of_decide_eq_true hi

/-- The table, in terms of a word's opcode and operand. -/
theorem legalWord_append {op : Byte} {arg : Word} :
    LegalWord (op ++ arg) ↔
      (op = 0x00#8 ∧ arg &&& 0xFFFFFFFF#32 = 0#32) ∨ (op = 0x01#8 ∧ arg &&& 0xFFFFFFFF#32 = 0#32) ∨
      (op = 0x10#8 ∧ arg &&& 0x00000000#32 = 0#32) ∨ (op = 0x11#8 ∧ arg &&& 0xFFFFFF00#32 = 0#32) ∨
      (op = 0x12#8 ∧ arg &&& 0xFFFFFFFF#32 = 0#32) ∨ (op = 0x20#8 ∧ arg &&& 0xFFFFFFFE#32 = 0#32) ∨
      (op = 0x21#8 ∧ arg &&& 0x00000000#32 = 0#32) ∨
      ((op = 0x30#8 ∧ arg &&& 0xFFFFFF00#32 = 0#32) ∧ (arg.extractLsb' 0 8).toNat ≤ 9) := by
  rw [← lowByte_append op]
  simp only [← matches_row_iff]
  rfl

/-- Each row of the table in the decoder's terms. -/
theorem decodes_of_legalWord {w : CmdWord} (h : LegalWord w) : ∃ i, decode w = .ok i := by
  rw [← opcode_append_operand w] at h ⊢
  generalize cmdOpcode w = op, cmdOperand w = arg at h ⊢
  have hbare : arg &&& 0xFFFFFFFF#32 = 0#32 → arg = 0#32 := fun ha => BitVec.and_allOnes.symm.trans ha
  rw [decode_append]
  rcases legalWord_append.1 h with
    ⟨rfl, ha⟩ | ⟨rfl, ha⟩ | ⟨rfl, -⟩ | ⟨rfl, ha⟩ | ⟨rfl, ha⟩ | ⟨rfl, ha⟩ | ⟨rfl, -⟩ | ⟨⟨rfl, ha⟩, hr⟩
  · exact ⟨.nop, if_pos (hbare ha)⟩
  · exact ⟨.rst, if_pos (hbare ha)⟩
  · exact ⟨_, decodeFields_rgn arg⟩
  · exact ⟨_, if_pos (extractLsb'_eq_zero_of_and_mask 8 rfl ha)⟩
  · exact ⟨.endRgn, if_pos (hbare ha)⟩
  · exact ⟨_, if_pos (extractLsb'_eq_zero_of_and_mask 1 rfl ha)⟩
  · exact ⟨_, decodeFields_chk arg⟩
  · refine ⟨.rd (arg.extractLsb' 0 8), ?_⟩
    rw [decodeFields_rd, if_pos (extractLsb'_eq_zero_of_and_mask 8 rfl ha), if_pos hr]

/-- Settles O6: a word that decodes is an encoding (`decode_eq_ok_iff`), and every row of the table decodes. -/
theorem legalWordsAreTheTable : Obligations.LegalWordsAreTheTable := by
  refine fun w => ⟨?_, decodes_of_legalWord⟩
  rintro ⟨i, hd⟩
  obtain ⟨hi, rfl⟩ := decode_eq_ok_iff.1 hd
  exact legalWord_encode hi

/-! ### Words that are ignored or illegal (section 3) -/

/-- Settles O8: a word outside the table is one the decoder refuses (`legalWordsAreTheTable`). -/
theorem illegalWordRaisesIllegal : Obligations.IllegalWordRaisesIllegal := by
  intro s rest w hw hf hi
  cases hd : decode w with
  | ok i => exact absurd ((legalWordsAreTheTable w).1 ⟨i, hd⟩) hw
  | error e => exact (step_rejects hi hd).trans (rejectWord_unfaulted hf)

/-- Every command but RST and RD is ignored while faulted. -/
theorem exec_faulted {i : Instr} {s : State} (hf : s.fault ≠ 0#8) (hrst : i ≠ .rst) (hrd : ∀ reg, i ≠ .rd reg) :
    exec i s = .next s := by
  cases i with
  | rst => exact absurd rfl hrst
  | rd reg => exact absurd rfl (hrd reg)
  | nop => exact execNop_eq s
  | rgn | dat | endRgn | fin | chk => exact attempt_faulted hf

/-- Settles O27: RST resets, RD answers, and what remains is a command ignored (`exec_faulted`) or a word that
is none. -/
theorem faultedStateExecutesRstAndRdOnly : Obligations.FaultedStateExecutesRstAndRdOnly := by
  intro s w rest hf hi
  refine ⟨fun hd => ?_, fun reg hd => ?_, fun ⟨hrst, hrd⟩ => ?_⟩
  · exact ⟨_, step_command hi hd, resetValues_resetBlock _, rfl, rfl⟩
  · obtain ⟨hreg, -⟩ := decode_eq_ok_iff.1 hd
    obtain ⟨v, hv⟩ := readRegister_isSome (s := s) (of_decide_eq_true hreg)
    exact ⟨v, hv, (step_command hi hd).trans (exec_rd (s := takeInput rest s) hv)⟩
  · cases hd : decode w with
    | ok i =>
      rw [step_command hi hd]
      exact exec_faulted hf (by rintro rfl; exact hrst hd) (by rintro reg rfl; exact hrd reg hd)
    | error e => exact (step_rejects hi hd).trans (rejectWord_faulted hf)

/-! ### The frame (section 1) -/

/-- Settles O34: the frames before frame `j` are `j * 216` bytes of the stream. -/
theorem txStreamIsFramesInOffsetOrder : Obligations.TxStreamIsFramesInOffsetOrder := by
  intro s j i hsize hi
  rw [txStream]
  generalize s.tx = frames at hsize ⊢
  induction frames generalizing j with
  | nil => simp
  | cons f fs ih =>
    obtain ⟨hf, hfs⟩ := List.forall_mem_cons.1 hsize
    rw [List.flatten_cons]
    cases j with
    | zero =>
      rw [Nat.zero_mul, Nat.zero_add, List.getElem?_append_left (by omega)]
      rfl
    | succ j =>
      rw [List.getElem?_append_right (by omega), hf,
        show (j + 1) * 216 + i - 216 = j * 216 + i by omega, ih j hfs, List.getElem?_cons_succ]

theorem encodeFrame_length (address : Word) {k : Nat} (crc : Half) {data : List Byte} (hd : data.length = k)
    (hk : k ≤ 200) : (encodeFrame address k crc data).length = 216 := by
  have hfield : 12 + (k + (200 - k + 4)) = 216 := by omega
  rw [encodeFrame_eq, encodeFrameWith_parts]
  simpa [hd] using hfield

/-- Settles O35: offsets 0 to 11 are the header's, the data field is the bytes and zeros, and offsets 212 to 215
are the trailer's. -/
theorem frameFieldsAtTheirOffsets : Obligations.FrameFieldsAtTheirOffsets := by
  rintro address k crc data hd hk f rfl
  have hlen : frameLength (encodeFrame address k crc data) = k := frameLength_encodeFrameWith hk
  have hpay : (List.drop 12 (encodeFrame address k crc data)).take k = data := by
    have h : framePayload (encodeFrame address k crc data) = data := framePayload_encodeFrameWith hd hk
    rwa [framePayload, hlen] at h
  have trailer : ∀ i, 212 ≤ i →
      frameByte (encodeFrame address k crc data) i = (frameTrailer 0x00#8).getD (i - 212) 0#8 :=
    fun _ => frameByte_trailer hd hk
  exact ⟨encodeFrame_length address crc hd hk, rfl, rfl, rfl, rfl, rfl, rfl, rfl, rfl, hlen, rfl, rfl, rfl, hpay,
    fun _ => frameByte_zero hd, trailer 212 (by decide), trailer 213 (by decide), trailer 214 (by decide),
    trailer 215 (by decide)⟩

/-- Settles O37: a step keeps the invariant, of which `FrameOk` of every frame of TX is a part. -/
theorem emittedFramesAreWellFormed : Obligations.EmittedFramesAreWellFormed := by
  intro s t f h hstep htx
  exact (stepKeepsInvariant s t h hstep).framesOk f (by rw [htx]; exact List.mem_concat_self)

/-! ### Numbers (section 4) -/

theorem asmDigit_digitChar {base d : Nat} (hd : d < base) (hb : base ≤ 16) :
    asmDigit base (Nat.digitChar d) = some d := by
  have h16 : d < 16 := by omega
  rw [asmDigit]
  interval_cases d <;> exact if_pos hd

theorem toNat_toLower (c : Char) :
    c.toLower.toNat = if 65 ≤ c.toNat ∧ c.toNat ≤ 90 then c.toNat + 32 else c.toNat := by
  have hiff : (c.val ≥ 'A'.val ∧ c.val ≤ 'Z'.val) ↔ (65 ≤ c.toNat ∧ c.toNat ≤ 90) := Iff.rfl
  rw [Char.toLower]
  split
  · next h =>
    rw [if_pos (hiff.1 h)]
    have h2 := (hiff.1 h).2
    show (c.val + 32).toNat = c.val.toNat + 32
    rw [UInt32.toNat_add, Nat.mod_eq_of_lt]
    · rfl
    · have : c.val.toNat ≤ 90 := h2
      simp; omega
  · next h => rw [if_neg (fun h' => h (hiff.2 h'))]

/-- A letter has the same value in either case. -/
theorem asmDigit_toLower (base : Nat) (c : Char) : asmDigit base c.toLower = asmDigit base c := by
  rw [asmDigit, asmDigit, toNat_toLower]
  by_cases hupper : 65 ≤ c.toNat ∧ c.toNat ≤ 90
  · have hlow : ¬ (48 ≤ c.toNat + 32 ∧ c.toNat + 32 ≤ 57) := by omega
    have hdec : ¬ (48 ≤ c.toNat ∧ c.toNat ≤ 57) := by omega
    have hup : ¬ (65 ≤ c.toNat + 32 ∧ c.toNat + 32 ≤ 70) := by omega
    have hlo : ¬ (97 ≤ c.toNat ∧ c.toNat ≤ 102) := by omega
    have hiff : (97 ≤ c.toNat + 32 ∧ c.toNat + 32 ≤ 102) ↔ (65 ≤ c.toNat ∧ c.toNat ≤ 70) := by omega
    simp only [if_pos hupper, if_neg hlow, if_neg hdec, if_neg hup, if_neg hlo, hiff, Nat.reduceSubDiff]
  · rw [if_neg hupper]

theorem asmDigits_toLower (base n : Nat) (cs : List Char) :
    asmDigits base n (cs.map Char.toLower) = asmDigits base n cs := by
  induction cs generalizing n with
  | nil => rfl
  | cons c cs ih => simp only [List.map_cons, asmDigits, asmDigit_toLower, ih]

theorem asmDigits_append (base n : Nat) (cs ds : List Char) :
    asmDigits base n (cs ++ ds) = (asmDigits base n cs).bind fun m => asmDigits base m ds := by
  induction cs generalizing n with
  | nil => rfl
  | cons c cs ih =>
    simp only [List.cons_append, asmDigits]
    cases asmDigit base c with
    | none => rfl
    | some d => exact ih _

/-- Zeros before the digits change nothing. -/
theorem asmDigits_leadingZeros {base : Nat} (hb : 0 < base) (zeros : Nat) (digits : List Char) :
    asmDigits base 0 (List.replicate zeros '0' ++ digits) = asmDigits base 0 digits := by
  induction zeros with
  | zero => rfl
  | succ zeros ih =>
    have h0 : asmDigit base '0' = some 0 := if_pos hb
    rw [List.replicate_succ, List.cons_append, asmDigits, h0]
    simpa using ih

/-- The digits of a number are read as that number. -/
theorem asmDigits_toDigits {base : Nat} (h1 : 1 < base) (hb : base ≤ 16) (n : Nat) :
    asmDigits base 0 (Nat.toDigits base n) = some n := by
  induction n using Nat.strong_induction_on with
  | h n ih =>
    rcases Nat.lt_or_ge n base with hn | hn
    · rw [Nat.toDigits_of_lt_base hn, asmDigits, asmDigit_digitChar hn hb]
      simp [asmDigits]
    · have hmod : n % base < base := Nat.mod_lt _ (by omega)
      rw [Nat.toDigits_of_base_le h1 hn, asmDigits_append, ih _ (Nat.div_lt_self (by omega) h1), Option.bind_some,
        asmDigits, asmDigit_digitChar hmod hb]
      simp [asmDigits, Nat.div_add_mod']

/-- A run of decimal digits is a number: it does not begin with `0x`. -/
theorem asmNumber_decimal {digits : List Char} {n : Nat} (hne : digits ≠ [])
    (hd : asmDigits 10 0 digits = some n) : asmNumber digits = some n := by
  unfold asmNumber
  split
  · exact absurd rfl hne
  · cases hd
  · cases hd
  · exact hd

theorem asmNumber_hexadecimal {digits : List Char} (hne : digits ≠ []) :
    asmNumber ('0' :: 'x' :: digits) = asmDigits 16 0 digits := by
  cases digits with
  | nil => exact absurd rfl hne
  | cons => rfl

/-- Settles O59: zeros and case change nothing (`asmDigits_leadingZeros`, `asmDigits_toLower`), and the digits of
a number are read as it. -/
theorem numbersAreReadInBothBases : Obligations.NumbersAreReadInBothBases := by
  refine fun n zeros => ⟨?_, fun digits hd => ?_⟩
  · refine asmNumber_decimal (by simp) ?_
    rw [asmDigits_leadingZeros (by decide), asmDigits_toDigits (by decide) (by decide)]
  · have hne : digits ≠ [] := by rintro rfl; exact Nat.toDigits_ne_nil hd.symm
    rw [show "0x".toList ++ List.replicate zeros '0' ++ digits = '0' :: 'x' :: (List.replicate zeros '0' ++ digits)
      from rfl, asmNumber_hexadecimal (by simp [hne])]
    rw [asmDigits_leadingZeros (by decide), ← asmDigits_toLower, hd, asmDigits_toDigits (by decide) (by decide)]

/-! ### Words of the command text (section 4) -/

/-- What an operand command assembles to: the word of its opcode and operand, if that is a command. -/
theorem asmWord_eq_some_iff {op : Byte} {n : Nat} {w : CmdWord} :
    asmWord op n = some w ↔ n < 2 ^ 32 ∧ w = op ++ BitVec.ofNat 32 n ∧ ∃ i, decode w = .ok i := by
  by_cases hn : n < 2 ^ 32
  · rw [asmWord, if_pos hn, ← decode_append]
    constructor
    · split
      · next i hd => rintro ⟨⟩; exact ⟨hn, rfl, i, hd⟩
      · nofun
    · rintro ⟨-, rfl, i, hd⟩
      rw [hd]
  · rw [asmWord, if_neg hn]
    exact ⟨nofun, fun h => absurd h.1 hn⟩

theorem asmWord_eq_none_iff {op : Byte} {n : Nat} :
    asmWord op n = none ↔ 2 ^ 32 ≤ n ∨ ∃ e, decode (op ++ BitVec.ofNat 32 n) = .error e := by
  by_cases hn : n < 2 ^ 32
  · rw [asmWord, if_pos hn, ← decode_append, or_iff_right (by omega)]
    cases decode (op ++ BitVec.ofNat 32 n) <;> simp
  · rw [asmWord, if_neg hn]
    exact iff_of_true rfl (.inl (by omega))

/-- The number `opcode << 32 | operand` as a word. -/
theorem ofNat_opcode_operand (op : Byte) {n : Nat} (hn : n < 2 ^ 32) :
    BitVec.ofNat 40 (op.toNat * 2 ^ 32 + n) = op ++ BitVec.ofNat 32 n := by
  have hop := op.isLt
  refine BitVec.eq_of_toNat_eq ?_
  rw [append_toNat, BitVec.toNat_ofNat, BitVec.toNat_ofNat, Nat.mod_eq_of_lt hn, Nat.mod_eq_of_lt (by omega)]

/-- Settles O54: the word is the number's (`ofNat_opcode_operand`), and it is refused where the decoder refuses it. -/
theorem assembledWordIsOpcodeAndOperand : Obligations.AssembledWordIsOpcodeAndOperand := by
  refine fun op n => ⟨fun w hw => ?_, ?_⟩
  · obtain ⟨hn, rfl, -⟩ := asmWord_eq_some_iff.1 hw
    rw [append_toNat, BitVec.toNat_ofNat, Nat.mod_eq_of_lt hn]
  · rw [asmWord_eq_none_iff]
    rcases Nat.lt_or_ge n (2 ^ 32) with hn | hn
    · rw [ofNat_opcode_operand op hn]
    · exact iff_of_true (.inl hn) (.inl hn)

/-- A well-formed command's opcode and operand assemble to its encoding. -/
theorem asmWord_encode {i : Instr} (hi : i.wellFormed = true) :
    asmWord i.opcode i.operand.toNat = some (encode i) :=
  asmWord_eq_some_iff.2 ⟨i.operand.isLt, by rw [BitVec.ofNat_toNat, BitVec.setWidth_eq, encode], i, decode_encode hi⟩

/-- One result of `asmAll` is the result of one of the list's elements. -/
theorem mem_asmAll {α β : Type} {f : α → Option β} {xs : List α} {ys : List β} (h : asmAll f xs = some ys)
    {y : β} (hy : y ∈ ys) : ∃ x ∈ xs, f x = some y := by
  induction xs generalizing ys with
  | nil => cases h; cases hy
  | cons x xs ih =>
    rw [asmAll] at h
    split at h
    · next y' ys' hx hxs =>
      cases h
      rcases List.mem_cons.1 hy with rfl | hy
      · exact ⟨x, by simp, hx⟩
      · obtain ⟨x', hx', hf⟩ := ih hxs hy
        exact ⟨x', by simp [hx'], hf⟩
    · cases h

theorem asmWord_decodes {op : Byte} {n : Nat} {w : CmdWord} (h : asmWord op n = some w) :
    ∃ i, decode w = .ok i := (asmWord_eq_some_iff.1 h).2.2

/-- An operand and the word it gives. -/
theorem asmWord_bind_decodes {op : Byte} {value : Option Nat} {w : CmdWord} (h : value.bind (asmWord op) = some w) :
    ∃ i, decode w = .ok i := by
  obtain ⟨n, -, hw⟩ := Option.bind_eq_some_iff.1 h
  exact asmWord_decodes hw

theorem asmBytesWords_decodes {tokens : List (List Char)} {ws : List CmdWord} (h : asmBytesWords tokens = some ws) :
    ∀ w ∈ ws, ∃ i, decode w = .ok i := by
  intro w hw
  rw [asmBytesWords] at h
  split at h
  · cases h
  · obtain ⟨token, -, ht⟩ := mem_asmAll h hw
    exact asmWord_bind_decodes ht

theorem asmTokenLine_decodes {tokens : List (List Char)} {ws : List CmdWord} (h : asmTokenLine tokens = some ws) :
    ∀ w ∈ ws, ∃ i, decode w = .ok i := by
  unfold asmTokenLine at h
  split at h
  · cases h; nofun
  · obtain ⟨op, -, h⟩ := Option.bind_eq_some_iff.1 h
    obtain ⟨w, hw, rfl⟩ := Option.map_eq_some_iff.1 h
    exact List.forall_mem_singleton.2 (asmWord_decodes hw)
  · split_ifs at h with hB hR hrest
    · exact asmBytesWords_decodes h
    · split at h
      · split at h
        · next r ds e hr hds he =>
          cases h
          intro w hw
          rcases List.mem_append.1 hw with hw | hw
          · rcases List.mem_cons.1 hw with rfl | hw
            · exact asmWord_bind_decodes hr
            · exact asmBytesWords_decodes hds w hw
          · exact List.mem_singleton.1 hw ▸ asmWord_decodes he
        · cases h
      · cases h
    · obtain ⟨op, -, h⟩ := Option.bind_eq_some_iff.1 h
      obtain ⟨w, hw, rfl⟩ := Option.map_eq_some_iff.1 h
      exact List.forall_mem_singleton.2 (asmWord_bind_decodes hw)

theorem asmAsciiLine_decodes {operand : List Char} {ws : List CmdWord} (h : asmAsciiLine operand = some ws) :
    ∀ w ∈ ws, ∃ i, decode w = .ok i := by
  unfold asmAsciiLine at h
  split at h
  · cases h
  · split_ifs at h
    split at h
    · split_ifs at h
      intro w hw
      obtain ⟨c, -, hc⟩ := mem_asmAll h hw
      rw [asmAsciiWord] at hc
      split_ifs at hc
      exact asmWord_decodes hc
    · cases h

theorem asmLine_decodes {line : List Char} {ws : List CmdWord} (h : asmLine line = some ws) :
    ∀ w ∈ ws, ∃ i, decode w = .ok i := by
  unfold asmLine at h
  split at h
  · split_ifs at h
    · exact asmAsciiLine_decodes h
    · exact asmTokenLine_decodes h
  · exact asmTokenLine_decodes h

/-- Settles O55: every word of a line is one of `asmWord`'s, which decode. -/
theorem assemblerGivesLegalWords : Obligations.AssemblerGivesLegalWords := by
  intro text ws h w hw
  obtain ⟨lines, hlines, rfl⟩ := Option.map_eq_some_iff.1 h
  obtain ⟨line, hline, hw⟩ := List.mem_flatten.1 hw
  obtain ⟨chars, -, hchars⟩ := mem_asmAll hlines hline
  exact asmLine_decodes hchars w hw

/-! ### One line after another -/

/-- Settles O60: the lines of the text are the first line and the lines of the rest. -/
theorem linesAssembleOneAfterAnother : Obligations.LinesAssembleOneAfterAnother := by
  intro line text hline
  rw [assemble_line hline, assemble, asmLines_append hline, List.reverse_nil, List.nil_append, asmAll, assemble]
  cases asmLine line with
  | none => rfl
  | some a => cases asmAll asmLine (asmLines [] text) <;> rfl

/-! ### Lines of tokens -/

/-- A token other than a comma: a mnemonic, a register name or a number. -/
def PlainWord (word : List Char) : Prop := word ≠ [] ∧ ∀ c ∈ word, AsmPlain c

/-- A token that may begin a line of tokens: no line that begins with it is one of ASCII. -/
def LineStart (word : List Char) : Prop := PlainWord word ∧ word.head? ≠ some 'A'

/-- The mnemonics of R81, and of R87 but ASCII. -/
theorem lineStart_mnemonic :
    ∀ word ∈ ["NOP", "RST", "END", "RGN", "DAT", "FIN", "CHK", "RD", "BYTES", "REGION"], LineStart word.toList := by
  simp [LineStart, PlainWord, AsmPlain, asmBlank]

theorem plainWord_of_asmNumber {number : List Char} {n : Nat} (h : asmNumber number = some n) : PlainWord number :=
  ⟨asmNumber_ne_nil h, asmNumber_plain h⟩

theorem newline_not_mem_plainWord {word : List Char} (h : PlainWord word) : '\n' ∉ word :=
  fun hc => (h.2 _ hc).2.2.2 rfl

theorem newline_not_mem_words {words : List (List Char)} (h : ∀ w ∈ words, PlainWord w) :
    '\n' ∉ words.flatMap (' ' :: ·) := by
  simp only [List.mem_flatMap, List.mem_cons, not_exists, not_and, not_or]
  exact fun w hw => ⟨by decide, newline_not_mem_plainWord (h w hw)⟩

/-- A line that begins with such a token is read token by token. -/
theorem assemble_lineStart {word rest : List Char} (hw : LineStart word) (hr : '\n' ∉ rest) :
    assemble (word ++ rest) = asmTokenLine (asmTokens word.reverse rest) := by
  obtain ⟨⟨hne, hplain⟩, hA⟩ := hw
  have hline : '\n' ∉ word ++ rest := by
    rw [List.mem_append, not_or]
    exact ⟨newline_not_mem_plainWord ⟨hne, hplain⟩, hr⟩
  have htokens : asmTokens [] (word ++ rest) = asmTokens word.reverse rest := by
    rw [asmTokens_plain hplain, List.append_nil]
  rw [assemble_line hline, ← htokens]
  cases word with
  | nil => exact absurd rfl hne
  | cons c cs =>
    have hc : asmBlank c = false := (hplain c (by simp)).1
    have hcA : c ≠ 'A' := by simpa using hA
    rw [asmLine, List.cons_append, List.dropWhile_cons_of_neg (by simp [hc])]
    split
    · next h => injection h with h; exact absurd h hcA
    · rfl

/-- After a comma, words with a blank before each are the tokens. -/
theorem asmTokens_separateWords {words : List (List Char)} (h : ∀ w ∈ words, PlainWord w) {rest : List Char}
    (hr : LineEnd rest) : asmTokens [] (words.flatMap (' ' :: ·) ++ rest) = words := by
  cases words with
  | nil => exact asmTokens_lineEnd hr []
  | cons w ws =>
    obtain ⟨⟨hne, hplain⟩, hws⟩ := List.forall_mem_cons.1 h
    have hstart : asmTokens [] (' ' :: (w ++ (ws.flatMap (' ' :: ·) ++ rest))) =
        asmTokens [] (w ++ (ws.flatMap (' ' :: ·) ++ rest)) := by
      rw [asmTokens, if_neg (by decide), if_pos (by decide), if_pos rfl, List.nil_append]
    rw [List.flatMap_cons, List.append_assoc, List.cons_append, hstart, asmTokens_plain hplain, List.append_nil,
      asmTokens_words hws hr (by simpa using hne), List.reverse_reverse]

/-- A line of words is read as those words, whatever ends it. -/
theorem assemble_words {word : List Char} (hw : LineStart word) {words : List (List Char)}
    (h : ∀ w ∈ words, PlainWord w) {rest : List Char} (hr : LineEnd rest) :
    assemble (word ++ (words.flatMap (' ' :: ·) ++ rest)) = asmTokenLine (word :: words) := by
  rw [assemble_lineStart hw, asmTokens_words h hr (by simpa using hw.1.1), List.reverse_reverse]
  rw [List.mem_append, not_or]
  exact ⟨newline_not_mem_words h, newline_not_mem_lineEnd hr⟩

/-! ### Commands -/

/-- A line of a mnemonic and one operand. A command's mnemonic is shorter than BYTES and REGION. -/
theorem assemble_mnemonic_operand {mnemonic operand rest : List Char} (hm : LineStart mnemonic)
    (hlen : mnemonic.length ≤ 3) (ho : PlainWord operand) (hr : LineEnd rest) :
    assemble (mnemonic ++ (' ' :: operand ++ rest)) = (asmOperandOpcode mnemonic).bind fun op =>
      ((if op = Opcode.rd then (asmRegisterName operand).or (asmNumber operand) else asmNumber operand).bind
        (asmWord op)).map fun w => [w] := by
  have hline := assemble_words hm (words := [operand]) (by simpa using ho) hr
  rw [List.flatMap_singleton] at hline
  rw [hline, asmTokenLine, if_neg (by rintro rfl; revert hlen; decide), if_neg (by rintro rfl; revert hlen; decide),
    if_pos rfl]
  nofun

/-- A number is no register name: none of the ten is read as a number. -/
theorem asmRegisterName_eq_none {number : List Char} {n : Nat} (h : asmNumber number = some n) :
    asmRegisterName number = none := by
  have ne : ∀ name, asmNumber name = none → number ≠ name := by
    rintro name hname rfl
    rw [hname] at h; cases h
  rw [asmRegisterName, if_neg (ne _ rfl), if_neg (ne _ rfl), if_neg (ne _ rfl), if_neg (ne _ rfl),
    if_neg (ne _ rfl), if_neg (ne _ rfl), if_neg (ne _ rfl), if_neg (ne _ rfl), if_neg (ne _ rfl), if_neg (ne _ rfl)]

/-- A line of a command with a number: the word of its opcode and that number, if the command takes an operand. -/
theorem assemble_operand {mnemonic number rest : List Char} {n : Nat} (hm : LineStart mnemonic)
    (hlen : mnemonic.length ≤ 3) (hn : asmNumber number = some n) (hr : LineEnd rest) :
    assemble (mnemonic ++ (' ' :: number ++ rest)) =
      (asmOperandOpcode mnemonic).bind fun op => (asmWord op n).map fun w => [w] := by
  rw [assemble_mnemonic_operand hm hlen (plainWord_of_asmNumber hn) hr, hn, asmRegisterName_eq_none hn]
  simp

/-- A line of RD with a register name: the word of its index. -/
theorem assemble_rd_register {name rest : List Char} {w : CmdWord} (hp : PlainWord name)
    (hw : (asmRegisterName name).bind (asmWord Opcode.rd) = some w) (hr : LineEnd rest) :
    assemble ("RD".toList ++ (' ' :: name ++ rest)) = some [w] := by
  obtain ⟨k, hk, hw⟩ := Option.bind_eq_some_iff.1 hw
  rw [assemble_mnemonic_operand (lineStart_mnemonic "RD" (by decide)) (by decide) hp hr, hk]
  exact congrArg (Option.map fun w => [w]) hw

/-- Settles O58: a mnemonic alone, with a number (`assemble_operand`), and RD with a register name. -/
theorem commandLinesAssembleToTheirWords : Obligations.CommandLinesAssembleToTheirWords := by
  intro rest hr
  have bare : ∀ {mnemonic}, LineStart mnemonic → assemble (mnemonic ++ rest) = asmTokenLine [mnemonic] :=
    fun hm => assemble_words hm (words := []) nofun hr
  refine ⟨?_, ?_, ?_, fun number n hn => ?_, fun p hp => ?_⟩
  · exact bare (lineStart_mnemonic "NOP" (by decide))
  · exact bare (lineStart_mnemonic "RST" (by decide))
  · exact bare (lineStart_mnemonic "END" (by decide))
  · have operand : ∀ {mnemonic}, LineStart mnemonic → mnemonic.length ≤ 3 →
        assemble (mnemonic ++ (' ' :: number ++ rest)) =
          (asmOperandOpcode mnemonic).bind fun op => (asmWord op n).map fun w => [w] :=
      fun hm hlen => assemble_operand hm hlen hn hr
    refine ⟨?_, ?_, ?_, ?_, ?_, ?_, ?_, ?_⟩
    · exact operand (lineStart_mnemonic "RGN" (by decide)) (by decide)
    · exact operand (lineStart_mnemonic "DAT" (by decide)) (by decide)
    · exact operand (lineStart_mnemonic "FIN" (by decide)) (by decide)
    · exact operand (lineStart_mnemonic "CHK" (by decide)) (by decide)
    · exact operand (lineStart_mnemonic "RD" (by decide)) (by decide)
    · exact operand (lineStart_mnemonic "NOP" (by decide)) (by decide)
    · exact operand (lineStart_mnemonic "RST" (by decide)) (by decide)
    · exact operand (lineStart_mnemonic "END" (by decide)) (by decide)
  · refine assemble_rd_register ?_ ?_ hr
    · revert p; simp [PlainWord, AsmPlain, asmBlank]
    · revert p; decide

/-! ### Pseudo-instructions -/

theorem asmWord_dat (v : Byte) : asmWord Opcode.dat v.toNat = some (encode (.dat v)) := by
  have hv : (Instr.dat v).operand.toNat = v.toNat := BitVec.toNat_setWidth_of_le (by decide)
  rw [← hv]
  exact asmWord_encode rfl

/-- The numbers of a list of bytes give the words of their DATs. -/
theorem asmBytesWords_numbers {data : List Byte} {numbers : List (List Char)} (hne : data ≠ [])
    (h : numbers.map asmNumber = data.map fun v => some v.toNat) :
    asmBytesWords numbers = some (data.map fun v => encode (.dat v)) := by
  have hnum : numbers ≠ [] := by
    rintro rfl
    exact hne (List.map_eq_nil_iff.1 h.symm)
  rw [asmBytesWords, if_neg hnum]
  refine asmAll_eq_some ?_
  calc numbers.map asmDatWord
      = (numbers.map asmNumber).map (fun n => n.bind (asmWord Opcode.dat)) := by rw [List.map_map]; rfl
    _ = data.map fun v => some (encode (.dat v)) := by
      rw [h, List.map_map]
      exact List.map_congr_left fun v _ => asmWord_dat v

theorem plainWord_of_numbers {data : List Byte} {numbers : List (List Char)}
    (h : numbers.map asmNumber = data.map fun v => some v.toNat) : ∀ number ∈ numbers, PlainWord number := by
  intro number hmem
  have hn : asmNumber number ∈ data.map fun v => some v.toNat := h ▸ List.mem_map_of_mem hmem
  obtain ⟨v, -, hv⟩ := List.mem_map.1 hn
  exact plainWord_of_asmNumber hv.symm

/-- A line of BYTES. -/
theorem assemble_bytes {data : List Byte} {numbers : List (List Char)} {rest : List Char} (hne : data ≠ [])
    (h : numbers.map asmNumber = data.map fun v => some v.toNat) (hr : LineEnd rest) :
    assemble ("BYTES".toList ++ (numbers.flatMap (' ' :: ·) ++ rest)) = some ((asmBytes data).map encode) := by
  rw [assemble_words (lineStart_mnemonic "BYTES" (by decide)) (plainWord_of_numbers h) hr, asmBytes, List.map_map]
  refine Eq.trans ?_ (asmBytesWords_numbers hne h)
  cases numbers with
  | nil => exact absurd (List.map_eq_nil_iff.1 h.symm) hne
  | cons => rfl

/-- The tokens of REGION, its base, a comma and bytes. -/
theorem asmTokenLine_region {data : List Byte} {numbers : List (List Char)} (hne : data ≠ [])
    (h : numbers.map asmNumber = data.map fun v => some v.toNat) {base : Word} {number : List Char}
    (hb : asmNumber number = some base.toNat) :
    asmTokenLine ("REGION".toList :: number :: [','] :: numbers) = some ((asmRegion base data).map encode) := by
  have hrgn : (asmNumber number).bind (asmWord Opcode.rgn) = some (encode (.rgn base)) := by
    rw [hb]; exact asmWord_encode (i := .rgn base) rfl
  have hend : asmWord Opcode.endRgn 0 = some (encode .endRgn) := asmWord_encode (i := .endRgn) rfl
  simp [asmTokenLine, hrgn, hend, asmBytesWords_numbers hne h, asmRegion, asmBytes]

/-- A line of REGION. -/
theorem assemble_region {data : List Byte} {numbers : List (List Char)} {rest : List Char} (hne : data ≠ [])
    (h : numbers.map asmNumber = data.map fun v => some v.toNat) {base : Word} {number : List Char}
    (hb : asmNumber number = some base.toNat) (hr : LineEnd rest) :
    assemble ("REGION".toList ++ (' ' :: number ++ ',' :: (numbers.flatMap (' ' :: ·) ++ rest))) =
      some ((asmRegion base data).map encode) := by
  obtain ⟨hnum, hplain⟩ := plainWord_of_asmNumber hb
  have hline : '\n' ∉ ' ' :: number ++ ',' :: (numbers.flatMap (' ' :: ·) ++ rest) := by
    have h1 := newline_not_mem_plainWord (plainWord_of_asmNumber hb)
    have h2 := newline_not_mem_words (plainWord_of_numbers h)
    have h3 := newline_not_mem_lineEnd hr
    simp only [List.cons_append, List.mem_cons, List.mem_append, not_or]
    exact ⟨by decide, h1, by decide, h2, h3⟩
  rw [assemble_lineStart (lineStart_mnemonic "REGION" (by decide)) hline, List.cons_append,
    asmTokens_blank (by simp), asmTokens_plain hplain, asmTokens_comma (by simpa using hnum)]
  rw [asmTokens_separateWords (plainWord_of_numbers h) hr, List.append_nil, List.reverse_reverse, List.reverse_reverse]
  exact asmTokenLine_region hne h hb

/-! ### ASCII -/

/-- A text without a quote is read up to the quote after it. -/
theorem asmQuoted_append {text : List Char} (h : ∀ c ∈ text, c.toNat ≠ 34) (after : List Char) :
    asmQuoted (text ++ '"' :: after) = some (text, after) := by
  induction text with
  | nil => rfl
  | cons c cs ih =>
    obtain ⟨hc, hcs⟩ := List.forall_mem_cons.1 h
    rw [List.cons_append, asmQuoted, if_neg hc, ih hcs]
    rfl

/-- The DAT of an ASCII character. -/
theorem asmAsciiWord_eq {c : Char} (h : c.toNat < 128) :
    asmAsciiWord c = some (encode (.dat (BitVec.ofNat 8 c.toNat))) := by
  have hv : (BitVec.ofNat 8 c.toNat).toNat = c.toNat := Nat.mod_eq_of_lt (by omega)
  rw [asmAsciiWord, if_pos h, ← asmWord_dat, hv]

/-- Settles O57: the text is read up to its quote, each character gives its DAT, and what follows gives no token. -/
theorem asciiExpandsToItsCharacters : Obligations.AsciiExpandsToItsCharacters := by
  intro text rest h hr
  have hline : '\n' ∉ "ASCII \"".toList ++ text ++ "\"".toList ++ rest := by
    have h1 : '\n' ∉ text := fun hc => (h _ hc).2.2 rfl
    have h2 := newline_not_mem_lineEnd hr
    simp [h1, h2]
  rw [assemble_line hline]
  have hblank : asmTokens [] rest = [] := asmTokens_lineEnd hr []
  have hquoted : asmQuoted (text ++ '"' :: rest) = some (text, rest) :=
    asmQuoted_append (fun c hc => (h c hc).2.1) rest
  have hcodes : asmAll asmAsciiWord text = some (text.map fun c => encode (.dat (BitVec.ofNat 8 c.toNat))) :=
    asmAll_eq_some (List.map_congr_left fun c hc => asmAsciiWord_eq (h c hc).1)
  calc asmLine ("ASCII \"".toList ++ text ++ "\"".toList ++ rest)
      = asmAsciiLine ('"' :: (text ++ '"' :: rest)) := by simp [asmLine, asmBlank]
    _ = asmAll asmAsciiWord text := by
      rw [asmAsciiLine, if_pos (by decide), hquoted]
      exact if_pos hblank
    _ = _ := hcodes

/-! ### The three together -/

/-- Settles O56: `assemble_bytes` and `assemble_region`; the latter gives the spec's example and
`asciiExpandsToItsCharacters` the other one. -/
theorem pseudoInstructionsExpand : Obligations.PseudoInstructionsExpand := by
  refine ⟨fun _ => rfl, fun _ _ => rfl, fun data numbers rest hne h hr => ⟨?_, fun base number hb => ?_⟩, ?_, ?_⟩
  · rw [List.append_assoc]
    exact assemble_bytes hne h hr
  · simpa using assemble_region hne h hb hr
  · exact assemble_region (data := [1#8, 2#8]) (numbers := ["0x01".toList, "0x02".toList]) (rest := [])
      (base := 0x100#32) (number := "0x100".toList) (List.cons_ne_nil _ _) rfl rfl ⟨[], [], rfl, nofun, .inl rfl⟩
  · exact asciiExpandsToItsCharacters "12".toList [] (by simp) ⟨[], [], rfl, nofun, .inl rfl⟩

end Sys2Proof.Proofs

/-! PROOFS. The statements of 40_crc16.md: the values of the CRC16, the bitwise CRC it equals, and that the address
enters neither CRC. -/

namespace Sys2Proof.Proofs

open Sys2Proof Sys2Proof.Machine Sys2Proof.Safety

/-! ### The values (section 1) -/

/-- Settles O38: each value is computed. -/
theorem crc16GivesStatedValues : Obligations.Crc16GivesStatedValues :=
  ⟨by decide, by decide, by decide, by decide, by decide, by decide +kernel⟩

/-! ### The bitwise CRC (section 3)

The step of R100 and the step of R105 are both linear over `^^^` in the register and the byte together, so that
they are equal once they agree where only one byte of the three is not zero. -/

theorem xor_and_distrib_right {w : Nat} (x y m : BitVec w) : (x ^^^ y) &&& m = (x &&& m) ^^^ (y &&& m) :=
  BitVec.eq_of_getLsbD_eq fun i _ => by
    simp only [BitVec.getLsbD_xor, BitVec.getLsbD_and, Bool.and_xor_distrib_right]

/-- Exchanging the bytes of the register, the first statement of R100, is linear: no bit comes from both sides of
its `|||`. -/
theorem swapBytes_xor (c d : Half) :
    ((c ^^^ d) >>> 8) ||| ((c ^^^ d) <<< 8) = ((c >>> 8) ||| (c <<< 8)) ^^^ ((d >>> 8) ||| (d <<< 8)) := by
  refine BitVec.eq_of_getLsbD_eq fun i hi => ?_
  by_cases h8 : i < 8
  · simp [h8]
  · have h16 : 16 ≤ 8 + i := by omega
    simp [hi, h8, BitVec.getLsbD_of_ge, h16]

/-- What each of the last four statements of R100 does, `t ^ f(t)`, is linear if `f` is. -/
theorem xor_map_xor {f : Half → Half} (hf : ∀ s t, f (s ^^^ t) = f s ^^^ f t) (s t : Half) :
    s ^^^ t ^^^ f (s ^^^ t) = (s ^^^ f s) ^^^ (t ^^^ f t) := by
  rw [hf]; ac_rfl

theorem crc16Step_xor (c d : Half) (v u : Byte) :
    crc16Step (c ^^^ d) (v ^^^ u) = crc16Step c v ^^^ crc16Step d u := by
  have h2 : ((c ^^^ d) >>> 8 ||| (c ^^^ d) <<< 8) ^^^ (v ^^^ u).setWidth 16 =
      ((c >>> 8 ||| c <<< 8) ^^^ v.setWidth 16) ^^^ ((d >>> 8 ||| d <<< 8) ^^^ u.setWidth 16) := by
    rw [swapBytes_xor, BitVec.setWidth_xor]; ac_rfl
  have h3 := xor_map_xor (f := fun t => (t &&& 0xFF#16) >>> 4) fun s t => by
    rw [xor_and_distrib_right, BitVec.ushiftRight_xor_distrib]
  have h4 := xor_map_xor (f := fun t => (t <<< 8) <<< 4) fun s t => by
    rw [BitVec.shiftLeft_xor_distrib, BitVec.shiftLeft_xor_distrib]
  have h5 := xor_map_xor (f := fun t => ((t &&& 0xFF#16) <<< 4) <<< 1) fun s t => by
    rw [xor_and_distrib_right, BitVec.shiftLeft_xor_distrib, BitVec.shiftLeft_xor_distrib]
  simp only [crc16Step, h2, h3, h4, h5]

/-- One shift of R105 as the spec writes it, with the polynomial or 0 to add. -/
theorem crc16BitShift_eq_xor (c : Half) :
    crc16BitShift c = c <<< 1 ^^^ (if c.getLsbD 15 then 0x1021#16 else 0#16) := by
  unfold crc16BitShift
  split
  · rfl
  · exact BitVec.xor_zero.symm

theorem crc16BitShift_xor (c d : Half) : crc16BitShift (c ^^^ d) = crc16BitShift c ^^^ crc16BitShift d := by
  have hpoly : ∀ a b : Bool, (if a ^^ b then 0x1021#16 else 0#16) =
      (if a then 0x1021#16 else 0#16) ^^^ (if b then 0x1021#16 else 0#16) := by decide
  rw [crc16BitShift_eq_xor, crc16BitShift_eq_xor, crc16BitShift_eq_xor, BitVec.shiftLeft_xor_distrib,
    BitVec.getLsbD_xor, hpoly]
  ac_rfl

theorem crc16BitStep_xor (c d : Half) (v u : Byte) :
    crc16BitStep (c ^^^ d) (v ^^^ u) = crc16BitStep c v ^^^ crc16BitStep d u := by
  have hbyte : c ^^^ d ^^^ (v ^^^ u).setWidth 16 <<< 8 =
      (c ^^^ v.setWidth 16 <<< 8) ^^^ (d ^^^ u.setWidth 16 <<< 8) := by
    rw [BitVec.setWidth_xor, BitVec.shiftLeft_xor_distrib]; ac_rfl
  simp only [crc16BitStep, hbyte, crc16BitShift_xor]

/-- A register is its high byte and its low byte, each alone in it, put together. -/
theorem half_eq_xor_bytes (c : Half) :
    c = (c.extractLsb' 8 8).setWidth 16 <<< 8 ^^^ (c.extractLsb' 0 8).setWidth 16 := by
  refine BitVec.eq_of_getLsbD_eq fun i hi => ?_
  by_cases h8 : i < 8
  · simp [hi, h8]
  · have hlt : i - 8 < 8 := by omega
    have hadd : 8 + (i - 8) = i := by omega
    simp [hi, h8, hlt, hadd]

/-- The two steps agree where only the register's high byte, only its low byte, or only the data byte is not
zero. -/
theorem crc16Step_eq_bitStep_of_byte (b : Byte) :
    crc16Step (b.setWidth 16 <<< 8) 0#8 = crc16BitStep (b.setWidth 16 <<< 8) 0#8 ∧
    crc16Step (b.setWidth 16) 0#8 = crc16BitStep (b.setWidth 16) 0#8 ∧
    crc16Step 0#16 b = crc16BitStep 0#16 b := by
  revert b; decide

theorem crc16Step_eq_bitStep (c : Half) (v : Byte) : crc16Step c v = crc16BitStep c v := by
  have hhigh := (crc16Step_eq_bitStep_of_byte (c.extractLsb' 8 8)).1
  have hlow := (crc16Step_eq_bitStep_of_byte (c.extractLsb' 0 8)).2.1
  have hdata := (crc16Step_eq_bitStep_of_byte v).2.2
  have hv : v = 0#8 ^^^ 0#8 ^^^ v := BitVec.zero_xor.symm
  have hc : c = c ^^^ 0#16 := BitVec.xor_zero.symm
  rw [hc, hv, half_eq_xor_bytes c, crc16Step_xor, crc16Step_xor, crc16BitStep_xor, crc16BitStep_xor, hhigh, hlow,
    hdata]

/-- Settles O40: the folds of R102 and R105 are of one step function. -/
theorem crc16IsBitwiseCrc : Obligations.Crc16IsBitwiseCrc := by
  have hstep : crc16Step = crc16BitStep := funext₂ crc16Step_eq_bitStep
  exact ⟨crc16Step_eq_bitStep, fun data => by rw [crc16, hstep]⟩

/-! ### The address enters neither CRC (section 2)

BASE enters a packet's address only. Without a fault the state with another BASE takes the same course. -/

theorem framePayload_nextFrame {k : Nat} {data : List Byte} (crc : Half) (s : State) (hd : data.length = k)
    (hk : k ≤ 200) : framePayload (nextFrame k crc data s) = data :=
  framePayload_encodeFrameWith hd hk

theorem frameCrc_nextFrame (k : Nat) (crc : Half) (data : List Byte) (s : State) :
    frameCrc (nextFrame k crc data s) = crc :=
  frameCrc_encodeFrame ..

/-- The CRC registers, the totals, and the payload and the CRC of each frame sent. -/
def crcView (s : State) : Half × Word × Word × Word × Word × Word × List (List Byte) × List Half :=
  (s.crc16, s.crc32Run, s.crc32A, s.crc32Out, s.length, s.pktCount, s.tx.map framePayload, s.tx.map frameCrc)

theorem crcView_afterChunk_base (v : Byte) (b : Word) (s : State) :
    crcView (afterChunk v { s with base := b }) = crcView (afterChunk v s) := by
  have hd : (s.buf.slice 199 ++ [v]).length = 200 := by simp
  simp [crcView, afterChunk, framePayload_nextFrame _ _ hd, frameCrc_nextFrame]

theorem crcView_afterTail_base (b : Word) (s : State) :
    crcView (afterTail { s with base := b }) = crcView (afterTail s) := by
  have hd : (s.buf.slice s.fill.val).length = s.fill.val := Memory.slice_length _ _
  simp [crcView, afterTail, framePayload_nextFrame _ _ hd Fin.is_le', frameCrc_nextFrame]

/-- A command that faults with neither base leaves the same `crcView` with both. -/
theorem crcView_exec_base {i : Instr} {s t u : State} {b : Word} (hs : exec i s = .next t)
    (hb : exec i { s with base := b } = .next u) (ht : t.fault = 0#8) (hu : u.fault = 0#8) :
    crcView t = crcView u := by
  cases exec_cases hs with
  | ignored hf => exact absurd ht hf
  | raised f => exact absurd ht (faultCode_number_ne_zero f.code)
  | nop => cases (execNop_eq _).symm.trans hb; rfl
  | rst => cases hb; rfl
  | rgn base hf hp => cases (execRgn_eq (s := { s with base := b }) hf hp).symm.trans hb; rfl
  | stored v hf hp hl => cases (execDat_store (s := { s with base := b }) hf hp hl).symm.trans hb; rfl
  | chunk v hf _ h9 =>
    cases exec_cases hb with
    | ignored hf' => exact absurd hf hf'
    | raised f => exact absurd hu (faultCode_number_ne_zero f.code)
    | stored _ _ _ hl => exact absurd h9 hl.ne
    | chunk => exact (crcView_afterChunk_base v b s).symm
  | closed hf hp h0 => cases (execEndRgn_close (s := { s with base := b }) hf hp h0).symm.trans hb; rfl
  | tail hf _ h0 =>
    cases exec_cases hb with
    | ignored hf' => exact absurd hf hf'
    | raised f => exact absurd hu (faultCode_number_ne_zero f.code)
    | closed _ _ h0' => exact absurd h0' h0
    | tail => exact (crcView_afterTail_base b s).symm
  | fin append hf hp => cases (execFin_eq (s := { s with base := b }) hf hp).symm.trans hb; rfl
  | chk hf hp => cases (execChk_eq (s := { s with base := b }) hf hp).symm.trans hb; rfl
  | rd reg v hr =>
    obtain ⟨w, hw⟩ := readRegister_isSome (s := { s with base := b }) hr
    cases (execRd_eq hw).symm.trans hb; rfl

/-- Settles O49: what it lists is `crcView`, part by part. -/
theorem addressEntersNoCrc : Obligations.AddressEntersNoCrc := by
  intro i s t u b hs hb ht hu
  simpa only [crcView, Prod.mk.injEq] using crcView_exec_base hs hb ht hu

end Sys2Proof.Proofs

/-! PROOFS. The statements of 41_crc32.md: the CRC32 fed with its own bytes, FIN and CHK, and the results frozen from
FIN on. -/

namespace Sys2Proof.Proofs

open Sys2Proof Sys2Proof.Machine Sys2Proof.Safety

/-! ### The arithmetic (section 1) -/

/-- Settles O39: the value is computed. -/
theorem crc32GivesSourceCheckValue : Obligations.Crc32GivesSourceCheckValue := by
  show crc32 _ = 0xA19A6E15#32
  decide +kernel

/-! ### The digest fed with its own bytes (section 3)

A byte equal to the top byte of the digest clears that byte, so the eight shifts of R110 add no polynomial: they only
bring the next byte of the digest to the top. -/

theorem crc32Shift_of_topBit_clear {c : Word} (h : c.getLsbD 31 = false) : crc32Shift c = c <<< 1 :=
  if_neg (ne_true_of_eq_false h)

/-- While the bits that leave the register are 0 no polynomial is added. -/
theorem crc32Shifts_of_topBits_clear {n : Nat} {c : Word} (h : ∀ i < n, c.getLsbD (31 - i) = false) :
    crc32Shifts n c = c <<< n := by
  induction n generalizing c with
  | zero => simp [crc32Shifts]
  | succ n ih =>
    have hrest : ∀ i < n, (c <<< 1).getLsbD (31 - i) = false := by
      intro i hi
      have hnext : c.getLsbD (31 - i - 1) = false := h (i + 1) (by omega)
      simp [hnext]
    rw [crc32Shifts, crc32Shift_of_topBit_clear (h 0 (Nat.succ_pos n)), ih hrest, Nat.add_comm n 1,
      BitVec.shiftLeft_add]

/-- A step with the digest's own top byte shifts the digest by a byte. -/
theorem crc32Step_topByte (c : Word) : crc32Step c (c.extractLsb' 24 8) = c <<< 8 := by
  rw [crc32Step, crc32Shifts_of_topBits_clear]
  · refine BitVec.eq_of_getLsbD_eq fun i hi => ?_
    have hlow : i - 8 < 24 := by omega
    simp [hlow]
  · intro i hi
    have htop : 31 - i = 24 + (7 - i) := by omega
    have hbyte : 7 - i < 8 := by omega
    have hlt : 7 - i < 32 := by omega
    have hbit : 24 + (7 - i) < 32 := by omega
    rw [htop, BitVec.getLsbD_xor, BitVec.getLsbD_shiftLeft, BitVec.getLsbD_setWidth, BitVec.getLsbD_extractLsb',
      Nat.add_sub_cancel_left]
    simp [hbyte, hlt, hbit]

/-- The same for a digest that was shifted by `k` bits: its top byte is a byte of `c`. -/
theorem crc32Step_shifted_topByte (c : Word) {k : Nat} (hk : k ≤ 24) :
    crc32Step (c <<< k) (c.extractLsb' (24 - k) 8) = c <<< (k + 8) := by
  have htop : (c <<< k).extractLsb' 24 8 = c.extractLsb' (24 - k) 8 := by
    refine BitVec.eq_of_getLsbD_eq fun i hi => ?_
    have hlt : 24 + i < 32 := by omega
    have hge : ¬ 24 + i < k := by omega
    have hbit : 24 + i - k = 24 - k + i := by omega
    rw [BitVec.getLsbD_extractLsb', BitVec.getLsbD_extractLsb', BitVec.getLsbD_shiftLeft, hbit]
    simp [hlt, hge]
  rw [← htop, crc32Step_topByte, BitVec.shiftLeft_add]

/-- Settles O41: each of the four bytes shifts the digest by a byte, and 32 shifts leave 0. -/
theorem crc32OfOwnBytesReversedIsZero : Obligations.Crc32OfOwnBytesReversedIsZero := fun c =>
  calc crc32Feed c (le32 c).reverse
      = crc32Step (crc32Step (crc32Step (crc32Step c (c.extractLsb' 24 8)) (c.extractLsb' 16 8))
          (c.extractLsb' 8 8)) (c.extractLsb' 0 8) := rfl
    _ = c <<< 32 := by
      rw [crc32Step_topByte, crc32Step_shifted_topByte c (k := 8) (by decide),
        crc32Step_shifted_topByte c (k := 16) (by decide), crc32Step_shifted_topByte c (k := 24) (by decide)]
    _ = 0#32 := BitVec.shiftLeft_eq_zero (le_refl 32)

/-! ### FIN and CHK (sections 3 and 4) -/

/-- A word whose fields the decoder refuses is illegal. -/
theorem illegalWord_of_decodeFields {op : Byte} {arg : Word} {e : DecodeError}
    (hd : decodeFields op arg = .error e) : IllegalWord op arg := by
  intro s rest hi
  have hstep : step s = rejectWord op (takeInput rest s) := by
    rw [step_rejects hi ((decode_append op arg).trans hd), cmdOpcode_append]
  exact ⟨fun hf => hstep.trans (rejectWord_unfaulted hf), fun hf => hstep.trans (rejectWord_faulted hf)⟩

/-- Settles O16: each case of FIN is its own law; for the digest, `afterFin` with and without append. -/
theorem finFollowsItsRule : Obligations.FinFollowsItsRule := by
  refine ⟨fun append => decode_encode (i := .fin append) rfl, fun operand h => ?_, fun s => ⟨?_, ?_, ?_, ?_⟩⟩
  · exact illegalWord_of_decodeFields ((decodeFields_fin operand).trans (if_neg h))
  · exact fun append hf => exec_faulted hf nofun nofun
  · exact fun append hf hp => execFin_seq hf hp
  · exact fun hf hp => execFin_eq hf hp
  · exact fun hf hp => ⟨finRun true s, rfl, execFin_eq hf hp⟩

/-- Settles O17: each case of CHK is its own law. -/
theorem chkFollowsItsRule : Obligations.ChkFollowsItsRule := by
  refine ⟨fun value => decode_encode (i := .chk value) rfl, fun s value => ⟨?_, ?_, ?_, ?_⟩⟩
  · exact fun hf => exec_faulted hf nofun nofun
  · exact fun hf hp => execChk_seq hf hp
  · exact fun hf hp hv => execChk_mismatch hf hp hv
  · rintro hf hp rfl
    exact execChk_eq hf hp

/-- Under the invariant LENGTH is the number of the emitted bytes (R24). -/
theorem emittedBytes_length {s : State} (h : Inv s) : (emittedBytes s).length = s.length.toNat := by
  have hpay : (imageFrames s).map (fun f => (framePayload f).length) = (imageFrames s).map frameLength :=
    List.map_congr_left fun f hf => framePayload_length (h.framesOk f (List.mem_of_mem_drop hf))
  rw [emittedBytes, List.length_flatMap, hpay, h.lengthSum]

/-- Settles O47: FIN keeps the invariant (`inv_afterFin`), which says in DONE what the results are. -/
theorem finCapturesImageCrc : Obligations.FinCapturesImageCrc := by
  intro s append h hf hp
  have ht : Inv (afterFin append s) := inv_afterFin h append hp
  have himage : imageBytes s = emittedBytes (afterFin append s) :=
    imageBytes_of_no_chunk (h.fillClosed (by simp [hp]))
  exact ⟨afterFin append s, execFin_eq hf hp, ⟨hf, rfl⟩, himage.symm, ht.doneA rfl, ht.doneOut rfl,
    (emittedBytes_length ht).symm⟩

/-! ### The results after FIN (section 5) -/

/-- A command out of sequence fails the check of the phase and no other (R167, R174). -/
theorem raises_seq_of_phaseNeeded {s : State} {i : Instr} {f : FaultReport} {p : Phase} (h : Raises s i f)
    (hi : phaseNeeded i = some p) (hp : s.phase ≠ p) : f = seqFault i.opcode := by
  cases h with
  | seq => rfl
  | reserved => cases hi
  | align hs | chunkAddr _ hs | chunkLen _ hs | tailAddr hs | tailLen hs | mismatch _ hs =>
    cases hi
    exact absurd hs hp

/-- Settles O31: in DONE a command that needs another phase is out of sequence, and no other but RST writes a
result. -/
theorem doneFreezesResults : Obligations.DoneFreezesResults := by
  intro i s t h hs hi
  cases exec_cases h with
  | rst => exact absurd rfl hi
  | rgn _ _ hp | stored _ _ hp | chunk _ _ hp | closed _ hp | tail _ hp | fin _ _ hp => simp [hs] at hp
  | ignored hf => exact ⟨rfl, rfl, rfl, rfl, rfl, rfl, rfl, hs, fun h0 => absurd h0 hf⟩
  | nop | chk | rd => exact ⟨rfl, rfl, rfl, rfl, rfl, rfl, rfl, hs, fun _ hn => by simp [phaseNeeded] at hn⟩
  | raised f _ _ _ hr =>
    refine ⟨rfl, rfl, rfl, rfl, rfl, rfl, rfl, hs, fun _ hn => ?_⟩
    have hseq : f = seqFault i.opcode := by
      rcases hn with hn | hn <;> exact raises_seq_of_phaseNeeded hr hn (by simp [hs])
    rw [hseq]
    rfl

/-- Settles O48: FIN at reset captures the digest's initial value, and in append mode the digest is computed. -/
theorem emptyImageIsAccepted : Obligations.EmptyImageIsAccepted :=
  ⟨⟨afterFin false State.reset, execFin_eq rfl rfl, ⟨rfl, rfl⟩, rfl, rfl, rfl⟩,
    ⟨afterFin true State.reset, execFin_eq rfl rfl, ⟨rfl, rfl⟩, rfl, by decide +kernel, rfl⟩⟩

end Sys2Proof.Proofs

/-! PROOFS. The statements of 42_packet_encoder.md: RGN, DAT, END and the emission procedure case by case, what they
leave unchanged, the bound of IDX, and the frames a region becomes. -/

namespace Sys2Proof.Proofs

open Sys2Proof Sys2Proof.Machine Sys2Proof.Safety

/-! ### The commands and the emission procedure (sections 2 to 4) -/

/-- Settles O12: each case of RGN is its own law. -/
theorem rgnFollowsItsRule : Obligations.RgnFollowsItsRule := by
  refine ⟨fun base => decode_encode (i := .rgn base) rfl, fun s base => ⟨?_, ?_, ?_⟩⟩
  · exact fun hf => exec_faulted hf nofun nofun
  · exact fun hf hp => execRgn_seq hf hp
  · exact fun hf hp => execRgn_eq hf hp

/-- Settles O13: each case of DAT is its own law; a stored byte is read back by `Memory.read_write`. -/
theorem datFollowsItsRule : Obligations.DatFollowsItsRule := by
  refine ⟨fun v => decode_encode (i := .dat v) rfl, fun operand h => ?_, fun s v => ⟨?_, ?_, ?_, ?_, ?_, ?_⟩⟩
  · exact illegalWord_of_decodeFields ((decodeFields_dat operand).trans (if_neg h))
  · exact fun hf => exec_faulted hf nofun nofun
  · exact fun hf hp => execDat_seq hf hp
  · exact fun hf hp hl hm => ⟨storeByte v s, execDat_store hf hp hl, fill_succ_val hl, rfl, rfl,
      fun i => Memory.read_write hm s.fill.val i v, rfl⟩
  · exact fun hf hp h9 ha hl => execDat_chunk hf hp h9 ha hl
  · exact fun hf hp h9 ha => execDat_emit_error hf hp h9 (emit_addrOvf ha)
  · exact fun hf hp h9 ha hl => execDat_emit_error hf hp h9 (emit_lenOvf ha hl)

/-- Settles O14: the two checks in their order, and `sendFrame` where both pass. -/
theorem emitFollowsItsRule : Obligations.EmitFollowsItsRule := by
  refine fun s k crc data => ⟨emit_addrOvf, emit_lenOvf, fun ha hl => ?_⟩
  have hsend : emit k crc data s = .ok (sendFrame (nextFrame k crc data s) k s) :=
    (if_neg (Nat.not_le.2 ha)).trans (if_neg (Nat.not_le.2 hl))
  exact ⟨_, hsend, rfl, Nat.mod_eq_of_lt hl, rfl, rfl, rfl, rfl, fun _ => rfl, rfl⟩

/-- Settles O15: each case of END is its own law. -/
theorem endFollowsItsRule : Obligations.EndFollowsItsRule := by
  refine ⟨rfl, fun operand h => ?_, fun s => ⟨?_, ?_, ?_, ?_, ?_, ?_, ?_⟩⟩
  · exact illegalWord_of_decodeFields ((decodeFields_endRgn operand).trans (decodeBare_nonzero .endRgn h))
  · exact fun hf => exec_faulted hf nofun nofun
  · exact fun hf hp => execEndRgn_seq hf hp
  · exact fun hf hp h0 => execEndRgn_close hf hp h0
  · exact fun hf hp h8 => execEndRgn_align hf hp h8
  · exact fun hf hp h0 h8 ha hl => execEndRgn_tail hf hp h0 h8 ha hl
  · exact fun hf hp h0 h8 ha => execEndRgn_emit_error hf hp h0 h8 (emit_addrOvf ha)
  · exact fun hf hp h0 h8 ha hl => execEndRgn_emit_error hf hp h0 h8 (emit_lenOvf ha hl)

/-- Settles O22: DAT writes BUF at index FILL only, an emission empties it, and in every other case it stays. -/
theorem storingCommandsFrame : Obligations.StoringCommandsFrame := by
  intro i s t h hm hi
  cases exec_cases h with
  | ignored | raised => simp
  | nop | rst | rgn | fin | chk | rd => simp at hi
  | stored v =>
    have hread : ∀ a, a ≠ s.fill.val → (s.buf.write s.fill.val v).read a = s.buf.read a :=
      fun a ha => by rw [Memory.read_write hm, if_neg ha]
    simpa using hread
  | chunk => simp [afterChunk]
  | closed => simp
  | tail => simp [afterTail]

/-! ### The bound of IDX (section 6) -/

/-- The address of the region's last frame, which is below 2^32, is 200 or more for every frame before it (R137). -/
theorem idx_le_of_idxOk {s : State} (h : IdxOk s) : s.idx ≤ 21474837 := by
  rcases h with h | h <;> omega

theorem idxOk_of_execCase {i : Instr} {s t : State} (h : IdxOk s) (hc : ExecCase s i t) : IdxOk t := by
  cases hc with
  | ignored | nop | raised | stored | closed | fin | chk | rd => exact h
  | rst | rgn => exact .inl rfl
  | chunk _ _ _ _ ha | tail _ _ _ _ ha => exact .inr ha

/-- Settles O45: RGN and a reset set IDX to 0, and an emission counts a frame whose address passed its check. -/
theorem idxStaysBounded : Obligations.IdxStaysBounded := by
  intro s t h hstep
  have ht : IdxOk t := by
    cases step_cases hstep with
    | waits | ignored | illegal => exact h
    | hardwareReset => exact .inl rfl
    | executes _ _ rest _ _ _ _ hc => exact idxOk_of_execCase (s := takeInput rest s) h hc
  exact ⟨ht, idx_le_of_idxOk ht⟩

/-! ### The frames of a region in the batch view (section 7) -/

/-- The frame of a chunk at an address, as the batch view makes it. -/
def chunkFrame (address : Nat) (chunk : List Byte) : Frame :=
  encodeFrame (BitVec.ofNat 32 address) chunk.length (crc16 chunk) chunk

theorem frameAddress_chunkFrame (address : Nat) (chunk : List Byte) :
    frameAddress (chunkFrame address chunk) = BitVec.ofNat 32 address := frameAddress_encodeFrame ..

theorem frameLength_chunkFrame {address : Nat} {chunk : List Byte} (h : chunk.length ≤ 200) :
    frameLength (chunkFrame address chunk) = chunk.length := frameLength_encodeFrameWith h

theorem framePayload_chunkFrame {address : Nat} {chunk : List Byte} (h : chunk.length ≤ 200) :
    framePayload (chunkFrame address chunk) = chunk := framePayload_encodeFrameWith rfl h

/-- After the chunk the data field holds zeros (R74). -/
theorem chunkFrame_zeroTail (address : Nat) (chunk : List Byte) :
    ((chunkFrame address chunk).drop (12 + chunk.length)).take (200 - chunk.length) =
      List.replicate (200 - chunk.length) 0x00#8 := by
  rw [chunkFrame, encodeFrame_eq, encodeFrameWith_parts, ← List.drop_drop, List.drop_left' (by simp),
    List.append_assoc, List.drop_left, List.take_left' (by simp)]

theorem packetsFrom_nil (n address : Nat) : packetsFrom n address [] = [] := by cases n <;> rfl

theorem packetsFrom_succ {data : List Byte} (h : data ≠ []) (n address : Nat) :
    packetsFrom (n + 1) address data =
      chunkFrame address (data.take 200) :: packetsFrom n (address + 200) (data.drop 200) := if_neg h

/-- A region has a frame for each 200 bytes begun. -/
theorem packetsFrom_length {n address : Nat} {data : List Byte} (hn : data.length ≤ n * 200) :
    (packetsFrom n address data).length = (data.length + 199) / 200 := by
  induction n generalizing address data with
  | zero =>
    rw [List.eq_nil_of_length_eq_zero (by omega : data.length = 0)]
    rfl
  | succ n ih =>
    rcases eq_or_ne data [] with rfl | hne
    · rfl
    · have hpos : 0 < data.length := List.length_pos_of_ne_nil hne
      rw [packetsFrom_succ hne, List.length_cons, ih (by rw [List.length_drop]; omega), List.length_drop]
      omega

/-- Frame `j` of a region carries its chunk `j`, at the address of that chunk (R133, R134). -/
theorem packetsFrom_getD {n address j : Nat} {data : List Byte} (hn : data.length ≤ n * 200)
    (hj : j * 200 < data.length) :
    (packetsFrom n address data).getD j [] =
      chunkFrame (address + j * 200) ((data.drop (j * 200)).take 200) := by
  induction n generalizing address j data with
  | zero => omega
  | succ n ih =>
    have hne : data ≠ [] := List.ne_nil_of_length_pos (by omega)
    rw [packetsFrom_succ hne]
    cases j with
    | zero => rfl
    | succ j =>
      have hrest : (data.drop 200).length = data.length - 200 := List.length_drop
      rw [List.getD_cons_succ, ih (j := j) (by omega) (by omega), List.drop_drop, Nat.add_assoc,
        Nat.succ_mul, Nat.add_comm (j * 200)]

/-- The payloads of a region's frames are its bytes. -/
theorem packetsFrom_payloads {n address : Nat} {data : List Byte} (hn : data.length ≤ n * 200) :
    (packetsFrom n address data).flatMap framePayload = data := by
  induction n generalizing address data with
  | zero => exact (List.eq_nil_of_length_eq_zero (by omega)).symm
  | succ n ih =>
    rcases eq_or_ne data [] with rfl | hne
    · rfl
    · rw [packetsFrom_succ hne, List.flatMap_cons, framePayload_chunkFrame (List.length_take_le ..),
        ih (by rw [List.length_drop]; omega), List.take_append_drop]

/-! ### Commands one after another -/

theorem asmBytes_append (d e : List Byte) : asmBytes (d ++ e) = asmBytes d ++ asmBytes e := List.map_append

theorem execAll_append {is js : List Instr} {s t : State} (h : execAll is s = .next t) :
    execAll (is ++ js) s = execAll js t := by
  induction is generalizing s with
  | nil => cases h; rfl
  | cons i is ih =>
    rw [List.cons_append, execAll]
    rw [execAll] at h
    cases hi : exec i s with
    | next u => rw [hi] at h; exact ih h
    | fault r => rw [hi] at h; cases h
    | refused r => rw [hi] at h; cases h

theorem execAll_singleton {i : Instr} {s t : State} (h : exec i s = .next t) : execAll [i] s = .next t := by
  rw [execAll, h]; rfl

/-! ### The open chunk -/

/-- From the unfaulted open state `s` the bytes `data` of one chunk have led to `t`. So `ChunkReceived s [] s` says
that `s` is at the start of a chunk. -/
structure ChunkReceived (s : State) (data : List Byte) (t : State) : Prop where
  noFault : s.fault = 0#8
  isOpen : s.phase = .regionOpen
  fill : t.fill.val = data.length
  crc : t.crc16 = crc16 data
  bufWf : t.buf.wf = true
  bytes : t.buf.slice data.length = data
  rest : t = { s with fill := t.fill, crc16 := t.crc16, buf := t.buf, crc32Run := crc32Feed s.crc32Run data }

section
variable {s t : State} {data : List Byte}

theorem ChunkReceived.fault_eq (h : ChunkReceived s data t) : t.fault = 0#8 := by
  rw [h.rest]; exact h.noFault

theorem ChunkReceived.phase_eq (h : ChunkReceived s data t) : t.phase = .regionOpen := by
  rw [h.rest]; exact h.isOpen

theorem ChunkReceived.packetAddress_eq (h : ChunkReceived s data t) : packetAddress t = packetAddress s := by
  rw [h.rest]; rfl

theorem ChunkReceived.length_eq (h : ChunkReceived s data t) : t.length = s.length := by rw [h.rest]

theorem ChunkReceived.crc32Run_eq (h : ChunkReceived s data t) : t.crc32Run = crc32Feed s.crc32Run data := by
  rw [h.rest]

/-- An emission overwrites all that the chunk's bytes changed. -/
theorem ChunkReceived.afterFrame_eq (h : ChunkReceived s data t) (chunk : List Byte) (run : Word) (phase : Phase) :
    afterFrame chunk run phase t = afterFrame chunk run phase s := by
  rw [h.rest]; rfl

/-- The state after RGN is at the start of a chunk (R125). -/
theorem chunkReceived_afterRgn (base : Word) (hf : s.fault = 0#8) (hm : s.buf.wf = true) :
    ChunkReceived (afterRgn base s) [] (afterRgn base s) :=
  ⟨hf, rfl, rfl, rfl, hm, rfl, rfl⟩

theorem chunkReceived_storeByte (h : ChunkReceived s data t) (hd : data.length < 199) (v : Byte) :
    ChunkReceived s (data ++ [v]) (storeByte v t) where
  noFault := h.noFault
  isOpen := h.isOpen
  fill := by
    rw [storeByte_fill, fill_succ_val (by rw [h.fill]; exact hd), h.fill, List.length_append]; rfl
  crc := by rw [storeByte_crc16, h.crc, crc16_snoc]
  bufWf := Memory.wf_write h.bufWf t.fill.isLt v
  bytes := by
    rw [storeByte_buf, h.fill, List.length_append, List.length_singleton, Memory.slice_write h.bufWf, h.bytes]
  rest := by
    rw [crc32Feed_append]
    exact congrArg (storeByte v) h.rest

/-- The bytes of a chunk but its 200th are received one by one (R126). -/
theorem execAll_asmBytes_received (h : ChunkReceived s [] s) (hd : data.length ≤ 199) :
    ∃ t, execAll (asmBytes data) s = .next t ∧ ChunkReceived s data t := by
  induction data using List.reverseRecOn with
  | nil => exact ⟨s, rfl, h⟩
  | append_singleton data v ih =>
    rw [List.length_append, List.length_singleton] at hd
    obtain ⟨t, hexec, ht⟩ := ih (by omega)
    have hfill : t.fill.val < 199 := by rw [ht.fill]; omega
    refine ⟨storeByte v t, ?_, chunkReceived_storeByte ht (by omega) v⟩
    rw [asmBytes_append]
    exact (execAll_append hexec).trans (execAll_singleton (execDat_store ht.fault_eq ht.phase_eq hfill))

/-- The state after the emission of a frame whose bytes the digest has taken too. -/
def afterPacket (data : List Byte) (phase : Phase) (s : State) : State :=
  afterFrame data (crc32Feed s.crc32Run data) phase s

theorem packetAddress_afterPacket (data : List Byte) (phase : Phase) (s : State) :
    packetAddress (afterPacket data phase s) = packetAddress s + 200 := by
  show s.base.toNat + (s.idx + 1) * 200 = s.base.toNat + s.idx * 200 + 200
  omega

theorem afterPacket_length_toNat (hl : s.length.toNat + data.length < 2 ^ 32) (phase : Phase) :
    (afterPacket data phase s).length.toNat = s.length.toNat + data.length := Nat.mod_eq_of_lt hl

/-- The state after an emission that leaves the region open is at the start of a chunk (R127). -/
theorem chunkReceived_afterPacket (data : List Byte) (hf : s.fault = 0#8) :
    ChunkReceived (afterPacket data .regionOpen s) [] (afterPacket data .regionOpen s) :=
  ⟨hf, rfl, rfl, rfl, rfl, rfl, rfl⟩

/-- The 200th byte of a chunk sends the chunk's frame. -/
theorem afterChunk_of_received {v : Byte} (ht : ChunkReceived s data t) (hd : data.length = 199) :
    afterChunk v t = afterPacket (data ++ [v]) .regionOpen s := by
  have hlen : (data ++ [v]).length = 200 := by rw [List.length_append, hd]; rfl
  have hbytes : t.buf.slice 199 = data := by rw [← hd, ht.bytes]
  rw [afterPacket, ← ht.afterFrame_eq, crc32Feed_append, ← ht.crc32Run_eq, afterChunk, hbytes, ht.crc,
    ← crc16_snoc, ← ht.phase_eq, afterFrame, hlen]
  rfl

/-- END after a part of a chunk sends that part's frame. -/
theorem afterTail_of_received (ht : ChunkReceived s data t) : afterTail t = afterPacket data .idle s := by
  rw [afterPacket, ← ht.afterFrame_eq, ← ht.crc32Run_eq, afterTail, ht.fill, ht.bytes, ht.crc]
  rfl

/-- The bytes of a full chunk emit its frame (R126). -/
theorem execAll_asmBytes_fullChunk (h : ChunkReceived s [] s) (hd : data.length = 200)
    (ha : packetAddress s < 2 ^ 32) (hl : s.length.toNat + 200 < 2 ^ 32) :
    execAll (asmBytes data) s = .next (afterPacket data .regionOpen s) := by
  obtain rfl | ⟨data, v, rfl⟩ := data.eq_nil_or_concat'
  · simp at hd
  have h199 : data.length = 199 := by simpa using hd
  obtain ⟨t, hexec, ht⟩ := execAll_asmBytes_received (data := data) h h199.le
  rw [asmBytes_append, execAll_append hexec, ← afterChunk_of_received ht h199]
  refine execAll_singleton (execDat_chunk ht.fault_eq ht.phase_eq (ht.fill.trans h199) ?_ ?_)
  · rwa [ht.packetAddress_eq]
  · rwa [ht.length_eq]

/-- The bytes of a region's last chunk and END emit the tail frame and close the region (R130). -/
theorem execAll_asmBytes_tail (h : ChunkReceived s [] s) (h0 : data ≠ []) (hd : data.length < 200)
    (h8 : data.length % 8 = 0) (ha : packetAddress s < 2 ^ 32) (hl : s.length.toNat + data.length < 2 ^ 32) :
    execAll (asmBytes data ++ [.endRgn]) s = .next (afterPacket data .idle s) := by
  obtain ⟨t, hexec, ht⟩ := execAll_asmBytes_received (data := data) h (by omega)
  rw [execAll_append hexec, ← afterTail_of_received ht]
  refine execAll_singleton (execEndRgn_tail ht.fault_eq ht.phase_eq ?_ ?_ ?_ ?_)
  · rw [ht.fill]
    exact mt List.eq_nil_of_length_eq_zero h0
  · rwa [ht.fill]
  · rwa [ht.packetAddress_eq]
  · rwa [ht.length_eq, ht.fill]

/-! ### The region -/

/-- The block went from `s` to IDLE in `t` without a fault, sent `frames`, and LENGTH and the digest took `data`. -/
structure RegionSent (s : State) (frames : List Frame) (data : List Byte) (t : State) : Prop where
  noFault : t.fault = 0#8
  isIdle : t.phase = .idle
  bufWf : t.buf.wf = true
  tx : t.tx = s.tx ++ frames
  length : t.length.toNat = s.length.toNat + data.length
  crc32Run : t.crc32Run = crc32Feed s.crc32Run data

theorem regionSent_closed (h : ChunkReceived s [] s) : RegionSent s [] [] { s with phase := .idle } :=
  ⟨h.noFault, rfl, h.bufWf, (List.append_nil _).symm, rfl, rfl⟩

theorem regionSent_tail (hf : s.fault = 0#8) (hl : s.length.toNat + data.length < 2 ^ 32) :
    RegionSent s [chunkFrame (packetAddress s) data] data (afterPacket data .idle s) :=
  ⟨hf, rfl, rfl, rfl, afterPacket_length_toNat hl .idle, rfl⟩

/-- A full chunk comes before what the rest of the region sends. -/
theorem regionSent_cons {chunk : List Byte} {frames : List Frame} (hl : s.length.toNat + chunk.length < 2 ^ 32)
    (h : RegionSent (afterPacket chunk .regionOpen s) frames data t) :
    RegionSent s (chunkFrame (packetAddress s) chunk :: frames) (chunk ++ data) t :=
  { h with
    tx := h.tx.trans (List.append_assoc ..)
    length := by rw [h.length, afterPacket_length_toNat hl, List.length_append, Nat.add_assoc]
    crc32Run := by rw [h.crc32Run, crc32Feed_append]; rfl }

/-- END of a region with no byte left sends nothing (R132). -/
theorem execAll_endRgn_closed (h : ChunkReceived s [] s) (n address : Nat) :
    ∃ t, execAll (asmBytes [] ++ [.endRgn]) s = .next t ∧ RegionSent s (packetsFrom n address []) [] t := by
  rw [packetsFrom_nil]
  exact ⟨_, execAll_singleton (execEndRgn_close h.noFault h.isOpen h.fill), regionSent_closed h⟩

/-- From the start of a chunk the rest of a region's bytes and END send their frames, chunk by chunk. -/
theorem execAll_asmBytes_endRgn {n : Nat} (h : ChunkReceived s [] s) (hn : data.length ≤ n * 200)
    (h8 : data.length % 8 = 0) (ha : packetAddress s + data.length ≤ 2 ^ 32)
    (hl : s.length.toNat + data.length < 2 ^ 32) :
    ∃ t, execAll (asmBytes data ++ [.endRgn]) s = .next t ∧
      RegionSent s (packetsFrom n (packetAddress s) data) data t := by
  induction n generalizing s data with
  | zero =>
    obtain rfl := List.eq_nil_of_length_eq_zero (by omega : data.length = 0)
    exact execAll_endRgn_closed h _ _
  | succ n ih =>
    rcases eq_or_ne data [] with rfl | hne
    · exact execAll_endRgn_closed h _ _
    have hpos : 0 < data.length := List.length_pos_of_ne_nil hne
    rw [packetsFrom_succ hne]
    rcases Nat.lt_or_ge data.length 200 with hlt | hge
    · rw [List.take_of_length_le hlt.le, List.drop_of_length_le hlt.le, packetsFrom_nil]
      exact ⟨_, execAll_asmBytes_tail h hne hlt h8 (by omega) hl, regionSent_tail h.noFault hl⟩
    · have htake : (data.take 200).length = 200 := List.length_take_of_le hge
      have hdrop : (data.drop 200).length = data.length - 200 := List.length_drop
      have hlen := afterPacket_length_toNat (data := data.take 200) (s := s) (by omega) .regionOpen
      have haddr := packetAddress_afterPacket (data.take 200) .regionOpen s
      obtain ⟨t, hexec, ht⟩ := ih (data := data.drop 200) (chunkReceived_afterPacket (data.take 200) h.noFault)
        (by omega) (by omega) (by omega) (by omega)
      refine ⟨t, ?_, ?_⟩
      · rw [← List.take_append_drop 200 data, asmBytes_append, List.append_assoc,
          execAll_append (execAll_asmBytes_fullChunk h htake (by omega) (by omega)), hexec]
      · have hsent := regionSent_cons (by omega) ht
        rwa [haddr, List.take_append_drop] at hsent

/-- A region, from an unfaulted IDLE state, sends the batch frames of its bytes. -/
theorem execAll_asmRegion {base : Word} (hm : s.buf.wf = true) (hf : s.fault = 0#8) (hp : s.phase = .idle)
    (h8 : data.length % 8 = 0) (ha : base.toNat + data.length ≤ 2 ^ 32)
    (hl : s.length.toNat + data.length < 2 ^ 32) :
    ∃ t, execAll (asmRegion base data) s = .next t ∧ RegionSent s (packetize base data) data t := by
  have hrgn : execAll [.rgn base] s = .next (afterRgn base s) := execAll_singleton (execRgn_eq hf hp)
  have haddr : packetAddress (afterRgn base s) = base.toNat := Nat.add_zero _
  obtain ⟨t, hexec, ht⟩ := execAll_asmBytes_endRgn (n := data.length) (chunkReceived_afterRgn base hf hm) (by omega)
    h8 (by omega) hl
  rw [haddr] at ht
  exact ⟨t, (execAll_append hrgn).trans hexec, { ht with }⟩

end

/-- Settles O52: `execAll_asmRegion`. -/
theorem streamingRefinesBatch : Obligations.StreamingRefinesBatch := by
  intro s base data hm hf hp h8 ha hl
  obtain ⟨t, hexec, ht⟩ := execAll_asmRegion hm hf hp h8 ha hl
  exact ⟨t, hexec, ht.noFault, ht.isIdle, ht.tx, ht.length, ht.crc32Run⟩

/-! ### How many frames, where, and with which bytes -/

theorem packetize_length (base : Word) (data : List Byte) :
    (packetize base data).length = (data.length + 199) / 200 := packetsFrom_length (by omega)

theorem packetize_payloads (base : Word) (data : List Byte) :
    (packetize base data).flatMap framePayload = data := packetsFrom_payloads (by omega)

/-- Frame `j` of a region carries what is left of the bytes after `j` chunks, at most 200 of them, at
`base + j * 200` (R133, R134). -/
theorem packetize_getD {base : Word} {data : List Byte} {j : Nat} (hj : j * 200 < data.length) :
    (packetize base data).getD j [] = chunkFrame (base.toNat + j * 200) ((data.drop (j * 200)).take 200) :=
  packetsFrom_getD (by omega) hj

theorem frameAddress_packetize {base : Word} {data : List Byte} {j : Nat} (hj : j * 200 < data.length) :
    frameAddress ((packetize base data).getD j []) = BitVec.ofNat 32 (base.toNat + j * 200) := by
  rw [packetize_getD hj, frameAddress_chunkFrame]

theorem frameLength_packetize {base : Word} {data : List Byte} {j : Nat} (hj : j * 200 < data.length) :
    frameLength ((packetize base data).getD j []) = min 200 (data.length - j * 200) := by
  rw [packetize_getD hj, frameLength_chunkFrame (List.length_take_le ..), List.length_take, List.length_drop]

/-- Settles O50: the frames are the batch frames of O52, whose number, lengths, addresses and payloads are known. -/
theorem wholeChunkRegionPacketizes : Obligations.WholeChunkRegionPacketizes := by
  intro s base data n hm hf hp hd ha hl
  obtain ⟨t, hexec, ht⟩ := execAll_asmRegion hm hf hp (by omega) ha hl
  refine ⟨t, packetize base data, hexec, ht.noFault, ht.isIdle, ht.tx, ?_, fun j hj => ⟨?_, ?_⟩,
    packetize_payloads base data⟩
  · rw [packetize_length]; omega
  · rw [frameLength_packetize] <;> omega
  · exact frameAddress_packetize (by omega)

/-- Settles O51: as O50, and the last frame carries the `k` bytes after `n` chunks (`chunkFrame_zeroTail`). -/
theorem tailRegionPacketizes : Obligations.TailRegionPacketizes := by
  intro s base data n k hm hf hp hd h0 hk h8 ha hl
  obtain ⟨t, hexec, ht⟩ := execAll_asmRegion hm hf hp (by omega) ha hl
  refine ⟨t, packetize base data, hexec, ht.noFault, ht.isIdle, ht.tx, ?_, fun j hj => ?_, ?_, fun j hj => ?_, ?_,
    packetize_payloads base data⟩
  · rw [packetize_length]; omega
  · rw [frameLength_packetize] <;> omega
  · rw [frameLength_packetize] <;> omega
  · exact frameAddress_packetize (by omega)
  · have hlen : ((data.drop (n * 200)).take 200).length = k := by
      rw [List.length_take, List.length_drop]; omega
    rw [packetize_getD (by omega)]
    simpa only [hlen] using chunkFrame_zeroTail (base.toNat + n * 200) ((data.drop (n * 200)).take 200)

end Sys2Proof.Proofs

/-! PROOFS. The statements of 43_control.md: NOP and RD, and what the commands that store nothing leave unchanged. -/

namespace Sys2Proof.Proofs

open Sys2Proof Sys2Proof.Machine

/-! ### NOP (R150) -/

/-- Settles O11: the decoder refuses a non-zero operand (`decodeBare_nonzero`), and NOP leaves every state as it was
(`execNop_eq`). -/
theorem nopFollowsItsRule : Obligations.NopFollowsItsRule := by
  refine ⟨rfl, fun operand h => ?_, execNop_eq⟩
  exact illegalWord_of_decodeFields ((decodeFields_nop operand).trans (decodeBare_nonzero .nop h))

/-! ### RD (R152) -/

/-- The decoder refuses an RD with a reserved bit or a reserved index (R83). -/
theorem decodeFields_rd_refuses {arg : Word}
    (h : arg.extractLsb' 8 24 ≠ 0#24 ∨ 9 < (arg.extractLsb' 0 8).toNat) :
    ∃ e, decodeFields 0x30#8 arg = .error e := by
  rw [decodeFields_rd]
  by_cases hz : arg.extractLsb' 8 24 = 0#24
  · have hr : ¬ (arg.extractLsb' 0 8).toNat ≤ 9 := Nat.not_le.2 (h.resolve_left (not_not.2 hz))
    exact ⟨_, (if_pos hz).trans (if_neg hr)⟩
  · exact ⟨_, if_neg hz⟩

/-- RD of a reserved index is ignored while faulted, as every illegal word is (R84). -/
theorem exec_rd_reserved_faulted {s : State} {reg : Byte} (h : 9 < reg.toNat) (hf : s.fault ≠ 0#8) :
    exec (.rd reg) s = .next s := by
  show execRd reg s = _
  rw [execRd, readRegister_reserved h]
  exact rejectWord_faulted hf

/-- Settles O19: a legal index has a value, which `exec_rd` answers; each other clause is its own law. -/
theorem rdFollowsItsRule : Obligations.RdFollowsItsRule := by
  refine ⟨fun reg hr => decode_encode (i := .rd reg) (decide_eq_true hr), fun operand h => ?_,
    fun s reg => ⟨fun hr => ?_, exec_rd_reserved, exec_rd_reserved_faulted⟩⟩
  · obtain ⟨_, he⟩ := decodeFields_rd_refuses h
    exact illegalWord_of_decodeFields he
  · obtain ⟨v, hv⟩ := readRegister_isSome (s := s) hr
    exact ⟨v, hv, exec_rd hv⟩

/-! ### What the commands that store nothing leave unchanged -/

/-- Settles O21: ignored, a command changes nothing; faulting, FAULT and FINFO; and with its effect, what the effect
of that command writes. -/
theorem nonStoringCommandsFrame : Obligations.NonStoringCommandsFrame := by
  intro i s t h
  cases exec_cases h with
  | ignored | nop | chk => simp
  | raised _ _ _ hnop => simp [hnop, raiseFault]
  | rst | stored | chunk | closed | tail => simp
  | rgn => simp [afterRgn]
  | fin => simp [afterFin]
  | rd => simp [putResponse]

end Sys2Proof.Proofs

/-! PROOFS. The statements of 60_exceptions.md: the six faults, the order of their checks, and what a fault keeps. -/

namespace Sys2Proof.Proofs

open Sys2Proof Sys2Proof.Machine Sys2Proof.Safety

/-! ### What enters and what leaves a fault (sections 1, 2 and 4) -/

/-- A check that fails raises its fault, command by command: the converse of `exec_cases` for `Raises`. -/
theorem exec_of_raises {s : State} {i : Instr} {f : FaultReport} (hf : s.fault = 0#8) (h : Raises s i f) :
    exec i s = .next (raiseFault f s) := by
  cases h with
  | reserved reg h9 => exact exec_rd_reserved h9 hf
  | seq p hi hp =>
    cases i with
    | nop | rst | rd => cases hi
    | rgn => cases hi; exact execRgn_seq hf hp
    | dat => cases hi; exact execDat_seq hf hp
    | endRgn => cases hi; exact execEndRgn_seq hf hp
    | fin => cases hi; exact execFin_seq hf hp
    | chk => cases hi; exact execChk_seq hf hp
  | align hp h8 => exact execEndRgn_align hf hp h8
  | chunkAddr v hp h9 ha => exact execDat_emit_error hf hp h9 (emit_addrOvf ha)
  | chunkLen v hp h9 ha hl => exact execDat_emit_error hf hp h9 (emit_lenOvf ha hl)
  | tailAddr hp h0 h8 ha => exact execEndRgn_emit_error hf hp h0 h8 (emit_addrOvf ha)
  | tailLen hp h0 h8 ha hl => exact execEndRgn_emit_error hf hp h0 h8 (emit_lenOvf ha hl)
  | mismatch value hp hv => exact execChk_mismatch hf hp hv

/-- A command keeps FAULT and FINFO, or it is RST, or a check of it fails in an unfaulted state. -/
theorem fault_of_execCase {s t : State} {i : Instr} (hc : ExecCase s i t) :
    (t.fault = s.fault ∧ t.finfo = s.finfo) ∨ (i = .rst ∧ t = resetBlock s) ∨
    (s.fault = 0#8 ∧ ∃ f, Raises s i f ∧ t = raiseFault f s) := by
  cases hc with
  | ignored | nop | rgn | stored | chunk | closed | tail | fin | chk | rd => exact .inl ⟨rfl, rfl⟩
  | rst => exact .inr (.inl ⟨rfl, rfl⟩)
  | raised f hf _ _ hr => exact .inr (.inr ⟨hf, f, hr, rfl⟩)

/-- The fault a command word raises: it is no command (R166), or a check of its command fails. -/
inductive WordRaises (s : State) (w : CmdWord) : FaultReport → Prop
  | illegal (e : DecodeError) : decode w = .error e → WordRaises s w (illegalFault (cmdOpcode w))
  | check (i : Instr) (f : FaultReport) : decode w = .ok i → Raises s i f → WordRaises s w f

/-- A step keeps FAULT and FINFO, or it is a reset, or the presented word raises a fault and changes nothing else. -/
theorem step_fault_cases {s t : State} (h : step s = .next t) :
    (t.fault = s.fault ∧ t.finfo = s.finfo) ∨
    (ResetValues t ∧ (s.inputs.head? = some .reset ∨ s.inputs.head? = some (.command (encode .rst)))) ∨
    (s.fault = 0#8 ∧ ∃ (w : CmdWord) (rest : List HostInput) (f : FaultReport),
      s.inputs = .command w :: rest ∧ WordRaises (takeInput rest s) w f ∧ t = raiseFault f (takeInput rest s)) := by
  cases step_cases h with
  | waits | ignored => exact .inl ⟨rfl, rfl⟩
  | hardwareReset rest hi => exact .inr (.inl ⟨resetValues_resetBlock _, .inl (by rw [hi, List.head?_cons])⟩)
  | illegal w e rest hi hd hf => exact .inr (.inr ⟨hf, w, rest, _, hi, .illegal e hd, rfl⟩)
  | executes w i rest _ hi hd _ hc =>
    rcases fault_of_execCase hc with hkeep | ⟨rfl, rfl⟩ | ⟨hf, f, hr, rfl⟩
    · exact .inl hkeep
    · obtain ⟨-, rfl⟩ := decode_eq_ok_iff.1 hd
      exact .inr (.inl ⟨resetValues_resetBlock _, .inr (by rw [hi, List.head?_cons])⟩)
    · exact .inr (.inr ⟨hf, w, rest, f, hi, .check i f hd hr, rfl⟩)

/-- A step that changes FAULT to a code raises that fault. -/
theorem raises_of_fault_ne {s t : State} (h : step s = .next t) (hne : t.fault ≠ s.fault) (h0 : t.fault ≠ 0#8) :
    ∃ (w : CmdWord) (rest : List HostInput) (f : FaultReport),
      s.inputs = .command w :: rest ∧ WordRaises (takeInput rest s) w f ∧ t = raiseFault f (takeInput rest s) := by
  rcases step_fault_cases h with ⟨hkeep, -⟩ | ⟨hreset, -⟩ | ⟨-, hraise⟩
  · exact absurd hkeep hne
  · exact absurd hreset.fault h0
  · exact hraise

/-- Settles O24: the step is `raiseFault` on the state with the word taken from the port. -/
theorem faultsArePrecise : Obligations.FaultsArePrecise := by
  intro s t h hne h0
  obtain ⟨w, rest, f, hi, -, rfl⟩ := raises_of_fault_ne h hne h0
  simp [raiseFault, takeInput, hi]

/-- Settles O25: out of phase the command fails its first check (`exec_of_raises`), and no other check has the code
of F_SEQ. -/
theorem outOfPhaseRaisesSeq : Obligations.OutOfPhaseRaisesSeq := by
  refine ⟨fun i p s hi hp hf => exec_of_raises hf (.seq p hi hp), fun i s t h hf h2 => ?_⟩
  rcases fault_of_execCase (exec_cases h) with ⟨hkeep, -⟩ | ⟨-, rfl⟩ | ⟨-, f, hr, rfl⟩
  · exact absurd (hf.symm.trans (hkeep.symm.trans h2)) (by decide)
  · nomatch h2
  · cases hr with
    | seq p hi hp => exact ⟨p, hi, hp⟩
    | reserved | align | chunkAddr | chunkLen | tailAddr | tailLen | mismatch => nomatch h2

/-- Settles O26: each way a word raises a fault is a row of the table; a decoded RD has a legal index, and a decoded
command's opcode byte is its word's. -/
theorem faultTableIsExhaustive : Obligations.FaultTableIsExhaustive := by
  intro s t h hf h0
  obtain ⟨w, rest, f, hi, hr, rfl⟩ := raises_of_fault_ne h (by rwa [hf]) h0
  refine ⟨w, by rw [hi, List.head?_cons], ?_⟩
  cases hr with
  | illegal e hd =>
    have hw : ¬ LegalWord w := fun hw => by
      obtain ⟨i, hok⟩ := decodes_of_legalWord hw
      simp [hd] at hok
    exact .inl ⟨rfl, hw, rfl⟩
  | check i _ hd hr =>
    obtain ⟨hwf, hw⟩ := decode_eq_ok_iff.1 hd
    cases hr with
    | reserved reg h9 => exact absurd (of_decide_eq_true hwf) (Nat.not_le.2 h9)
    | seq p hn hp =>
      have hop : i.opcode = cmdOpcode w := by rw [hw, cmdOpcode_encode]
      exact .inr (.inl ⟨rfl, congrArg (BitVec.setWidth 32) hop, i, p, hd, hn, hp⟩)
    | align hp h8 => exact .inr (.inr (.inl ⟨rfl, hd, h8, rfl⟩))
    | chunkAddr v hp h9 ha => exact .inr (.inr (.inr (.inl ⟨rfl, ha, rfl, .inr ⟨⟨v, hd⟩, h9⟩⟩)))
    | tailAddr hp hn h8 ha => exact .inr (.inr (.inr (.inl ⟨rfl, ha, rfl, .inl ⟨hd, hn⟩⟩)))
    | chunkLen v hp h9 ha hl => exact .inr (.inr (.inr (.inr (.inl ⟨rfl, rfl, .inr ⟨⟨v, hd⟩, h9, hl⟩⟩))))
    | tailLen hp hn h8 ha hl => exact .inr (.inr (.inr (.inr (.inl ⟨rfl, rfl, .inl ⟨hd, hn, hl⟩⟩))))
    | mismatch value hp hv => exact .inr (.inr (.inr (.inr (.inr ⟨rfl, hd, hv⟩))))

/-- Settles O28: of what a step can do to FAULT, raising one needs an unfaulted state. -/
theorem firstFaultIsKeptUntilReset : Obligations.FirstFaultIsKeptUntilReset := by
  intro s t h hf
  rcases step_fault_cases h with hkeep | hreset | ⟨h0, -⟩
  · exact .inl hkeep
  · exact .inr hreset
  · exact absurd h0 hf

/-! ### The order of the checks (section 3) -/

/-- What `exec_of_raises` says of FAULT: the code is that of the check that fails first. -/
theorem exec_fault_of_raises {i : Instr} {s : State} {f : FaultReport} (hf : s.fault = 0#8) (hr : Raises s i f) :
    ∃ t, exec i s = .next t ∧ t.fault = f.code.number := ⟨_, exec_of_raises hf hr, rfl⟩

/-- Settles O29: in each clause the check that fails first is the one `Raises` names, whatever the later ones say. -/
theorem checksAreMadeInOrder : Obligations.ChecksAreMadeInOrder := by
  refine fun s => ⟨fun t hf h => ?_, fun w rest e hf hi hd => ?_, fun i p hf hi hp => ?_, fun hf hp h8 => ?_,
    fun i hi hf hp => ?_, fun value hf hp hv => ?_⟩
  · exact (firstFaultIsKeptUntilReset s t h hf).imp (·.1) (·.1.fault)
  · exact ⟨_, (step_rejects hi hd).trans (rejectWord_unfaulted hf), rfl⟩
  · exact exec_fault_of_raises hf (.seq p hi hp)
  · exact exec_fault_of_raises hf (.align hp h8)
  · rcases hi with ⟨rfl, h0, h8⟩ | ⟨⟨v, rfl⟩, h9⟩
    · exact ⟨fun ha => exec_fault_of_raises hf (.tailAddr hp h0 h8 ha),
        fun ha hl => exec_fault_of_raises hf (.tailLen hp h0 h8 ha hl)⟩
    · exact ⟨fun ha => exec_fault_of_raises hf (.chunkAddr v hp h9 ha),
        fun ha hl => exec_fault_of_raises hf (.chunkLen v hp h9 ha hl)⟩
  · exact exec_fault_of_raises hf (.mismatch value hp hv)

end Sys2Proof.Proofs

/-! PROOFS. The statements of 70_reset_and_hazards.md: a step waits or takes one thing from the host and completes, and
the run of commands that produces an image. -/

namespace Sys2Proof.Proofs

open Sys2Proof Sys2Proof.Machine Sys2Proof.Safety

/-! ### Waiting for the host (section 1) -/

/-- Settles O9: with nothing presented `fetch` takes nothing. -/
theorem stepWithNoInputWaits : Obligations.StepWithNoInputWaits := by
  intro s hi
  rw [step, fetch_nil hi]

/-! ### Every step completes (section 4) -/

/-- Every command completes, in every state (R202). -/
theorem exec_completes (i : Instr) (s : State) : ∃ t, exec i s = .next t := by
  cases i with
  | nop => exact ⟨s, execNop_eq s⟩
  | rst => exact ⟨resetBlock s, execRst_eq s⟩
  | rgn base => exact attempt_next (rgnEffect base) s
  | dat v => exact attempt_next (datEffect v) s
  | endRgn => exact attempt_next endEffect s
  | fin append => exact attempt_next (finEffect append) s
  | chk value => exact attempt_next (chkEffect value) s
  | rd reg =>
    rcases Nat.lt_or_ge 9 reg.toNat with hreg | hreg
    · by_cases hf : s.fault = 0#8
      · exact ⟨_, exec_rd_reserved hreg hf⟩
      · exact ⟨s, exec_rd_reserved_faulted hreg hf⟩
    · obtain ⟨v, hv⟩ := readRegister_isSome (s := s) hreg
      exact ⟨_, exec_rd hv⟩

/-- The hardware reset resets the block, whatever its state (R190). -/
theorem step_hardwareReset {s : State} {rest : List HostInput} (hi : s.inputs = .reset :: rest) :
    step s = .next (resetBlock (takeInput rest s)) := by
  rw [step, fetch_cons hi]
  rfl

/-- Every step completes, whatever the host presents (R202). -/
theorem step_completes (s : State) : ∃ t, step s = .next t := by
  cases hi : s.inputs with
  | nil => exact ⟨s, stepWithNoInputWaits s hi⟩
  | cons input rest =>
    cases input with
    | reset => exact ⟨_, step_hardwareReset hi⟩
    | command w =>
      cases hd : decode w with
      | ok i => rw [step_command hi hd]; exact exec_completes i _
      | error e => rw [step_rejects hi hd]; exact attempt_next _ _

/-- No command touches what the host has still to present. -/
theorem inputs_of_execCase {i : Instr} {s t : State} (hc : ExecCase s i t) : t.inputs = s.inputs := by
  cases hc with
  | ignored | nop | raised | rst | rgn | stored | chunk | closed | tail | fin | chk | rd => rfl

/-- A step takes one thing from the host, if there is one. -/
theorem inputs_of_step {s t : State} (h : step s = .next t) : t.inputs = s.inputs.tail := by
  cases step_cases h with
  | waits hi => rw [hi]; rfl
  | hardwareReset rest hi | ignored _ _ rest hi | illegal _ _ rest hi => rw [hi]; rfl
  | executes _ _ rest _ hi _ _ hc => rw [inputs_of_execCase hc, hi]; rfl

/-- Settles O10: a step completes, and what it answers has taken one input. -/
theorem everyStepCompletes : Obligations.EveryStepCompletes := fun s =>
  (step_completes s).imp fun _ h => ⟨h, inputs_of_step h⟩

/-! ### The run that produces an image (sections 3 and 5) -/

section
variable {s t u : State}

/-- A block that is IDLE, unfaulted and with a canonical buffer has sent nothing more. -/
theorem regionSent_refl (hm : s.buf.wf = true) (hf : s.fault = 0#8) (hp : s.phase = .idle) : RegionSent s [] [] s :=
  ⟨hf, hp, hm, (List.append_nil _).symm, rfl, rfl⟩

/-- What is sent in two parts is the frames and the bytes of the first and then of the second. -/
theorem RegionSent.trans {fs gs : List Frame} {d e : List Byte} (h : RegionSent s fs d t) (h' : RegionSent t gs e u) :
    RegionSent s (fs ++ gs) (d ++ e) u :=
  { h' with
    tx := by rw [h'.tx, h.tx, List.append_assoc]
    length := by rw [h'.length, h.length, List.length_append, Nat.add_assoc]
    crc32Run := by rw [h'.crc32Run, h.crc32Run, crc32Feed_append] }

/-- From an unfaulted IDLE state regions send their batch frames one region after the other; the block compares no
region with another (R199). -/
theorem execAll_asmRegions {regions : List (Word × List Byte)} (hm : s.buf.wf = true) (hf : s.fault = 0#8)
    (hp : s.phase = .idle) (hr : ∀ r ∈ regions, r.2.length % 8 = 0 ∧ r.1.toNat + r.2.length ≤ 2 ^ 32)
    (hl : s.length.toNat + (regions.map fun r => r.2.length).sum < 2 ^ 32) :
    ∃ t, execAll (regions.flatMap fun r => asmRegion r.1 r.2) s = .next t ∧
      RegionSent s (regions.flatMap fun r => packetize r.1 r.2) (regions.flatMap fun r => r.2) t := by
  induction regions generalizing s with
  | nil => exact ⟨s, rfl, regionSent_refl hm hf hp⟩
  | cons r regions ih =>
    obtain ⟨⟨h8, ha⟩, hrs⟩ := List.forall_mem_cons.1 hr
    rw [List.map_cons, List.sum_cons] at hl
    obtain ⟨t, hexec, ht⟩ := execAll_asmRegion hm hf hp h8 ha (by omega)
    obtain ⟨u, hexecs, hu⟩ := ih ht.bufWf ht.noFault ht.isIdle hrs (by rw [ht.length]; omega)
    exact ⟨u, (execAll_append hexec).trans hexecs, ht.trans hu⟩

/-- What FIN reports for a digest that is the CRC32 of `data` (R114, R116). -/
theorem finRun_eq {data : List Byte} (h : s.crc32Run = crc32 data) (append : Bool) :
    finRun append s = if append then crc32 (data ++ le32 s.crc32Run) else s.crc32Run := by
  rw [finRun, crc32_append, h]

end

/-- Settles O53: RST leaves the digest and LENGTH empty, the regions feed them (`execAll_asmRegions`), and FIN captures
them (`finRun_eq`). -/
theorem legalImageIsProduced : Obligations.LegalImageIsProduced := by
  intro s regions append hr hl
  have hrst : execAll [.rst] s = .next (resetBlock s) := execAll_singleton (execRst_eq s)
  obtain ⟨t, hexec, ht⟩ := execAll_asmRegions (s := resetBlock s) rfl rfl rfl hr (by simpa using hl)
  have hrun : t.crc32Run = crc32 (regions.flatMap fun r => r.2) := by
    rw [ht.crc32Run, crc32_eq_feed, resetBlock_crc32Run]
  have hlen : t.length.toNat = (regions.map fun r => r.2.length).sum := by
    rw [ht.length, List.length_flatMap]
    exact Nat.zero_add _
  refine ⟨afterFin append t, ?_, ⟨ht.noFault, rfl⟩, ht.tx, hlen, hrun, finRun_eq hrun append⟩
  exact (execAll_append (is := [.rst] ++ _) ((execAll_append hrst).trans hexec)).trans
    (execAll_singleton (i := .fin append) (execFin_eq ht.noFault ht.isIdle))

end Sys2Proof.Proofs

/-! PROOFS. RST and the hardware reset (43_control.md, 70_reset_and_hazards.md), and the frame under the conventions
the spec leaves to the implementation (93_implementation_defined.md X1, X4). -/

namespace Sys2Proof.Proofs

open Sys2Proof Sys2Proof.Machine Sys2Proof.Safety

/-! ### RST and the hardware reset (R151, R190, R191) -/

/-- Settles O2: RST and the hardware reset both answer `resetBlock`, and the decoder refuses a non-zero operand
(`decodeBare_nonzero`). -/
theorem rstFollowsItsRule : Obligations.RstFollowsItsRule := by
  refine ⟨rfl, fun operand h => ?_, fun s => ?_, fun s rest hi => ?_⟩
  · exact illegalWord_of_decodeFields ((decodeFields_rst operand).trans (decodeBare_nonzero .rst h))
  · exact ⟨resetBlock s, execRst_eq s, resetValues_resetBlock s, rfl, rfl, rfl⟩
  · exact (step_hardwareReset hi).trans (execRst_eq _).symm

/-! ### The frame under every convention (X1, X4) -/

section
variable {order : ByteOrder} {pad : Byte} {address : Word} {k : Nat} {crc : Half} {data : List Byte}

theorem encodeFrameWith_length (hd : data.length = k) (hk : k ≤ 200) :
    (encodeFrameWith order pad address k crc data).length = 216 := by
  have hfield : 12 + (k + (200 - k + 4)) = 216 := by omega
  rw [encodeFrameWith_parts]
  simpa [hd] using hfield

theorem encodeFrameWith_address_field :
    ((encodeFrameWith order pad address k crc data).drop 4).take 4 = wordBytes order address := by
  cases order <;> rfl

theorem encodeFrameWith_crc_field :
    ((encodeFrameWith order pad address k crc data).drop 10).take 2 = halfBytes order crc := by
  cases order <;> rfl

theorem wordBytes_eq_ite (v : Word) :
    wordBytes order v = if order = .little then le32 v else (le32 v).reverse := by
  cases order <;> rfl

theorem halfBytes_eq_ite (v : Half) :
    halfBytes order v = if order = .little then le16 v else (le16 v).reverse := by
  cases order <;> rfl

/-- Three pad bytes stand in the header and three in the trailer (R75). -/
theorem frameByte_pads (hd : data.length = k) (hk : k ≤ 200) :
    ∀ i ∈ [2, 3, 9, 213, 214, 215], frameByte (encodeFrameWith order pad address k crc data) i = pad := by
  have trailer : ∀ i, 212 ≤ i →
      frameByte (encodeFrameWith order pad address k crc data) i = (frameTrailer pad).getD (i - 212) 0#8 :=
    fun _ => frameByte_trailer hd hk
  have h9 : frameByte (encodeFrameWith order pad address k crc data) 9 = pad := by cases order <;> rfl
  simp only [List.forall_mem_cons]
  exact ⟨rfl, rfl, h9, trailer 213 (by decide), trailer 214 (by decide), trailer 215 (by decide), nofun⟩

/-- `boot`, `update` and `data_length` are the same under every convention. -/
theorem frameByte_header_eq_default {i : Nat} (hi : i = 0 ∨ i = 1 ∨ i = 8) :
    frameByte (encodeFrameWith order pad address k crc data) i = frameByte (encodeFrame address k crc data) i := by
  rcases hi with rfl | rfl | rfl
  · rfl
  · rfl
  · cases order <;> rfl

/-- The data field, its zero tail and the end character are the same under every convention. -/
theorem frameByte_body_eq_default (hd : data.length = k) (hk : k ≤ 200) {i : Nat} (h1 : 12 ≤ i) (h2 : i ≤ 212) :
    frameByte (encodeFrameWith order pad address k crc data) i = frameByte (encodeFrame address k crc data) i := by
  rw [encodeFrame_eq]
  rcases Nat.lt_or_ge i (12 + k) with hdata | hdata
  · rw [frameByte_data hd h1 hdata, frameByte_data hd h1 hdata]
  · rcases Nat.lt_or_eq_of_le h2 with hzero | rfl
    · rw [frameByte_zero hd hdata hzero, frameByte_zero hd hdata hzero]
    · rw [frameByte_trailer hd hk (le_refl 212), frameByte_trailer hd hk (le_refl 212)]
      rfl

end

/-- Settles O36: the convention enters a frame by `wordBytes`, `halfBytes` and the pad bytes only. -/
theorem frameUnderEveryConvention : Obligations.FrameUnderEveryConvention := by
  intro order pad address k crc data hd hk
  refine ⟨encodeFrameWith_length hd hk, encodeFrameWith_address_field.trans (wordBytes_eq_ite address),
    encodeFrameWith_crc_field.trans (halfBytes_eq_ite crc), frameByte_pads hd hk, fun i hi => ?_⟩
  rcases hi with h0 | h1 | h8 | ⟨hlo, hhi⟩
  · exact frameByte_header_eq_default (.inl h0)
  · exact frameByte_header_eq_default (.inr (.inl h1))
  · exact frameByte_header_eq_default (.inr (.inr h8))
  · exact frameByte_body_eq_default hd hk hlo hhi

end Sys2Proof.Proofs
